-- ==== Sys2Proof/Word.lean ====
section
/-! DEFINITION. The two value types of the engine: a register value and a byte (R7, R14 of 00_scope.md). -/

namespace Sys2Proof

/-- A register value or table entry: `SW = 64` bits, unsigned (R7, R14). -/
abbrev Word := BitVec 64

/-- A byte: 8 bits (R14). -/
abbrev Byte := BitVec 8

end Sys2Proof
end

