-- ==== Sys2Proof/Config.lean ====
section
/-! DEFINITION. What is fixed when the engine is built or placed on a bus: the sizes, the build variant and the
base address of its window (00_scope.md section 3). -/

namespace Sys2Proof

/-- `SW`, the storage width in bits (R7). -/
abbrev storageWidth : Nat := 64

/-- `TBL_ENTRIES`, the number of LUT entries (R8). -/
abbrev tableEntries : Nat := 256

/-- `DBUF_BYTES`, the size of the input buffer in bytes (R9). -/
abbrev dbufBytes : Nat := 4096

/-- `VARIANT`, with the two further parameters of a `STATIC` build, `W_S` and `P_S` (R4, R11). -/
inductive Build where
  /-- Width and polynomial are chosen at run time; the table is built by a command. -/
  | dynamic
  /-- Width `W_S` and polynomial `P_S` are fixed; the table is read-only memory. -/
  | static (fixedWidth : BitVec 8) (fixedPoly : Word)
deriving DecidableEq, Repr

/-- This hardware instance is `DYNAMIC` (R4). -/
def Config.build : Build := .dynamic

/-- `ENGINE_BASE` in `State.reset`. DESIGN CHOICE (unsafe, log entry 3): the spec leaves it open (R10), every definition and
statement takes it from the state, and nothing depends on this value. -/
def Config.engineBase : Nat := 0

end Sys2Proof
end

