-- ==== Sys2Proof/Syntax.lean ====
section
/-! DEFINITION. The seven commands, one constructor per row of spec/opcode_table.json (R96 of 30_encoding.md). -/

namespace Sys2Proof

/-- A command of the engine with the operands its format carries (R91). Counts and buffer addresses are numbers, bounded by
`Instr.wellFormed`; the input byte is a bit pattern. -/
inductive Instr where
  /-- VALIDATE, format N (R121). -/
  | validate
  /-- INIT, format N (R130). -/
  | init
  /-- GENTABLE, format N (R142). -/
  | gentable
  /-- UPDATE BYTE, format B (R92, R160). -/
  | update (byte : Byte)
  /-- COMPUTE OFF, LEN, format S (R95, R180). -/
  | compute (off len : Nat)
  /-- FINALIZE, format N (R170). -/
  | finalize
  /-- REFLECT N, format R (R93, R151). -/
  | reflect (n : Nat)
deriving DecidableEq, Repr

end Sys2Proof
end

