-- ==== Sys2Proof/WellFormed.lean ====
section
/-! DEFINITION. Which command terms an encoding exists for: the operand ranges of R101 (30_encoding.md). -/

namespace Sys2Proof

/-- OFF and LEN are 12-bit numbers (R95, R101). -/
def fitsStreamField (x : Nat) : Bool := decide (x < 4096)

/-- N is a 7-bit number: "`REFLECT 128` does not exist" (R93, R101; 95_test_vectors.md section 2.4). -/
def fitsCountField (n : Nat) : Bool := decide (n < 128)

/-- Every operand fits the field its format gives it (R91). -/
def Instr.wellFormed : Instr → Bool
  | .validate => true
  | .init => true
  | .gentable => true
  | .update _ => true
  | .compute off len => fitsStreamField off && fitsStreamField len
  | .finalize => true
  | .reflect n => fitsCountField n

end Sys2Proof
end

