-- ==== Sys2Proof/Decode.lean ====
section
/-! DEFINITION. The command decoder, total on every 64-bit CMD write and rejecting by name (R96 to R100 of 30_encoding.md),
and the encoder written from the same formats (R91, R101). -/

namespace Sys2Proof

/-- Why a CMD value is illegal: the three ways of R98. -/
inductive Illegal where
  /-- `v[63:32] != 0`. -/
  | highBitsSet
  /-- OP is 0x0 or one of 0x8 to 0xF. -/
  | reservedOpcode
  /-- A reserved field of the opcode's format is not zero. -/
  | reservedFieldSet
deriving DecidableEq, Repr

/-- What `decode` answers: exactly one command, or illegal (R100). -/
inductive Decoded where
  | command (i : Instr)
  | illegal (why : Illegal)
deriving DecidableEq, Repr

/-- A row of the opcode map: it selects `v` exactly when `v AND mask = pattern` (R96). -/
structure OpRow where
  mnemonic : String
  pattern : Word
  mask : Word
deriving DecidableEq, Repr

/-- `v AND mask = match` (R96). -/
def OpRow.selects (row : OpRow) (v : Word) : Bool := decide (v &&& row.mask = row.pattern)

def rowValidate : OpRow := ⟨"VALIDATE", 0x0000000000000001#64, 0xFFFFFFFFFFFFFFFF#64⟩
def rowInit : OpRow := ⟨"INIT", 0x0000000000000002#64, 0xFFFFFFFFFFFFFFFF#64⟩
def rowGentable : OpRow := ⟨"GENTABLE", 0x0000000000000003#64, 0xFFFFFFFFFFFFFFFF#64⟩
def rowUpdate : OpRow := ⟨"UPDATE", 0x0000000000000004#64, 0xFFFFFFFFFFFF00FF#64⟩
def rowCompute : OpRow := ⟨"COMPUTE", 0x0000000000000005#64, 0xFFFFFFFF000000FF#64⟩
def rowFinalize : OpRow := ⟨"FINALIZE", 0x0000000000000006#64, 0xFFFFFFFFFFFFFFFF#64⟩
def rowReflect : OpRow := ⟨"REFLECT", 0x0000000000000007#64, 0xFFFFFFFFFFFF80FF#64⟩

/-- The opcode map of R96. -/
def opcodeMap : List OpRow :=
  [rowValidate, rowInit, rowGentable, rowUpdate, rowCompute, rowFinalize, rowReflect]

/-- `v[hi:lo]` as a number (R13); `size` is `hi - lo + 1`. -/
def field (v : Word) (lo size : Nat) : Nat := (v.extractLsb' lo size).toNat

/-- BYTE is `c[15:8]` (R92). -/
def byteField (v : Word) : Byte := v.extractLsb' 8 8

/-- N is `c[14:8]` (R93). -/
def countField (v : Word) : Nat := field v 8 7

/-- OFF is `c[19:8]` (R95). -/
def offField (v : Word) : Nat := field v 8 12

/-- LEN is `c[31:20]` (R95). -/
def lenField (v : Word) : Nat := field v 20 12

/-- OP is 0x0 or one of 0x8 to 0xF (R98). -/
def reservedOpcode (v : Word) : Bool := decide (field v 0 4 = 0) || decide (8 ≤ field v 0 4)

/-- The name of the reason a value that no row selects is illegal, the high bits first (R98). -/
def whyIllegal (v : Word) : Illegal :=
  if v >>> 32 ≠ 0#64 then .highBitsSet
  else if reservedOpcode v then .reservedOpcode
  else .reservedFieldSet

/-- The decoder: the one row that selects `v`, with its operands, or illegal (R96, R98, R100). -/
def decode (v : Word) : Decoded :=
  if rowValidate.selects v then .command .validate
  else if rowInit.selects v then .command .init
  else if rowGentable.selects v then .command .gentable
  else if rowUpdate.selects v then .command (.update (byteField v))
  else if rowCompute.selects v then .command (.compute (offField v) (lenField v))
  else if rowFinalize.selects v then .command .finalize
  else if rowReflect.selects v then .command (.reflect (countField v))
  else .illegal (whyIllegal v)

/-- The instruction in a decoder's answer, if there is one. -/
def Decoded.instr? : Decoded → Option Instr
  | .command i => some i
  | .illegal _ => none

/-- OP, the opcode in `c[3:0]` (R91, R96). -/
def opcode : Instr → Word
  | .validate => 0x1#64
  | .init => 0x2#64
  | .gentable => 0x3#64
  | .update _ => 0x4#64
  | .compute _ _ => 0x5#64
  | .finalize => 0x6#64
  | .reflect _ => 0x7#64

/-- The operand fields in their places, every reserved field zero (R91). -/
def operandBits : Instr → Word
  | .validate => 0#64
  | .init => 0#64
  | .gentable => 0#64
  | .update b => b.setWidth 64 <<< 8
  | .compute off len => (BitVec.ofNat 64 off <<< 8) ||| (BitVec.ofNat 64 len <<< 20)
  | .finalize => 0#64
  | .reflect n => BitVec.ofNat 64 n <<< 8

/-- The CMD value of a command (R101). -/
def encode (i : Instr) : Word := opcode i ||| operandBits i

/-- The decoder on the bits of an opcode-table row, numbered as spec/opcode_table.json numbers them: bit 0 is the least
significant bit of the CMD value, and every bit from `nbits` up is 0. A value of more than 64 bits is no CMD write. -/
def decodeTableWord (nbits w : Nat) : Option Instr :=
  if w % 2 ^ nbits < 2 ^ 64 then (decode (BitVec.ofNat 64 (w % 2 ^ nbits))).instr? else none

end Sys2Proof
end

