-- ==== Sys2Proof/Machine/Datapath.lean ====
section
/-! DEFINITION. The four datapath parts as pure functions (R2 of 00_scope.md): the parameter checker, the LUT generator,
the bit-reflection shifter and the LFSR update. -/

namespace Sys2Proof.Machine

/-- `derive_msb(w) = 1 << (w - 1)`, for `1 <= w <= SW` (R16, R22). -/
def deriveMsb (w : Nat) : Word := 1#64 <<< (w - 1)

/-- `derive_mask(w)`: all ones for `w = SW`, else `(1 << w) - 1`, for `1 <= w <= SW` (R16, R22). -/
def deriveMask (w : Nat) : Word :=
  if w = storageWidth then BitVec.allOnes 64 else (1#64 <<< w) - 1#64

/-- The width clauses of R120: `WIDTH != 0`, `WIDTH mod 8 = 0`, `WIDTH <= SW`. INIT tests them first (R130). -/
def legalWidth (width : BitVec 8) : Bool :=
  decide (width.toNat ≠ 0) && decide (width.toNat % 8 = 0) && decide (width.toNat ≤ storageWidth)

/-- The last clause of R120: no bit of POLY at a position `>= WIDTH`. -/
def polyFits (width : BitVec 8) (poly : Word) : Bool :=
  decide (width.toNat = storageWidth) || decide (poly >>> width.toNat = 0#64)

/-- The validity predicate over the four registers it reads (R120). -/
def validParams (width : BitVec 8) (poly msb mask : Word) : Bool :=
  decide (poly ≠ 0#64) && legalWidth width && decide (msb = deriveMsb width.toNat)
    && decide (mask = deriveMask width.toNat) && polyFits width poly

/-- The predicate on the values INIT derives, not on the stored ones (R130; 92_eei_decisions.md D11). -/
def validCandidate (width : BitVec 8) (poly : Word) : Bool :=
  validParams width poly (deriveMsb width.toNat) (deriveMask width.toNat)

/-- One polynomial-division step (R141). The test is taken on the value before the shift. -/
def divStep (r : Word) (w : Nat) (p : Word) : Word :=
  ((r <<< 1) ^^^ (if r &&& deriveMsb w ≠ 0#64 then p else 0#64)) &&& deriveMask w

/-- `step^n` (R141). -/
def divSteps : Nat → Word → Nat → Word → Word
  | 0, r, _, _ => r
  | n + 1, r, w, p => divSteps n (divStep r w p) w p

/-- The remaining passes of R140. Before a pass with index `i` the list holds `t[0 .. i-1]`, and the pass appends
`t[i XOR j] = crc XOR t[j]` for `j` in `0 .. i-1`, since `i XOR j = i + j`. -/
def tablePasses (w : Nat) (p : Word) : Nat → Word → List Word → List Word
  | 0, _, t => t
  | n + 1, crc, t =>
    let crc' := divStep crc w p
    tablePasses w p n crc' (t ++ t.map (fun e => crc' ^^^ e))

/-- `gen_table(w, p)`: eight passes from `t[0] = 0` and `crc = msb` (R140). -/
def genTable (w : Nat) (p : Word) : List Word := tablePasses w p 8 (deriveMsb w) [0#64]

/-- The effective bit count `min(N, SW)` (R93, R150). -/
def effectiveCount (n : Nat) : Nat := min n storageWidth

/-- `reflect(v, n)`: bit `m-1-i` of the result is bit `i` of `v`, for `i < m = min(n, SW)`; the rest is 0 (R150). -/
def reflect (v : Word) (n : Nat) : Word :=
  let m := effectiveCount n
  (List.range m).foldl (fun r i => r ||| (if v.getLsbD i then 1#64 <<< (m - 1 - i) else 0#64)) 0#64

/-- Step 1 of R160: the byte, reflected over 8 bits when REFIN is set. -/
def inputByte (refin : Bool) (b : Byte) : Word :=
  if refin then reflect (b.setWidth 64) 8 else b.setWidth 64

/-- Steps 2 and 3 of R160: `(d XOR (CRC >> (WIDTH - 8)))[7:0]`. -/
def lutIndex (w : Nat) (crc d : Word) : Nat := ((d ^^^ (crc >>> (w - 8))).extractLsb' 0 8).toNat

/-- Step 4 of R160: `((CRC << 8) AND MASK) XOR LUT[index]`. -/
def mixEntry (crc mask entry : Word) : Word := ((crc <<< 8) &&& mask) ^^^ entry

/-- Steps 1 and 2 of R170: XOR FINAL, mask, and reflect over WIDTH bits when REFOUT is set. -/
def finalValue (refout : Bool) (w : Nat) (crc final mask : Word) : Word :=
  let r := (crc ^^^ final) &&& mask
  if refout then reflect r w else r

/-- The ID constant: "crcx", revision 1, the VARIANT bit and SW (R34). -/
def idWord (b : Build) : Word :=
  (0x63726378#64 <<< 32) ||| (0x01#64 <<< 16)
    ||| (match b with | .dynamic => 0#64 | .static _ _ => 0x100#64) ||| BitVec.ofNat 64 storageWidth

/-- A `STATIC` build whose `(W_S, P_S)` fails the predicate is not a legal build (R11). -/
def legalBuild : Build → Bool
  | .dynamic => true
  | .static w p => validCandidate w p

end Sys2Proof.Machine
end

