-- ==== Sys2Proof/Machine/Memory.lean ====
section
/-! DEFINITION. The form both memories have, the LUT and DBUF: a list of (number, content) pairs with numbers strictly
rising. A number that is not listed is unwritten: its *written* mark is clear and it has no value (R39 of 10_state.md). -/

namespace Sys2Proof.Machine.Memory

/-- The content at number `a`, or none where the written mark is clear (R39). -/
def read {α : Type} : List (Nat × α) → Nat → Option α
  | [], _ => none
  | (k, x) :: m, a => if k = a then some x else read m a

/-- The memory with `x` stored at `a` and its written mark set; the numbers stay strictly rising (R15, R39). -/
def write {α : Type} : List (Nat × α) → Nat → α → List (Nat × α)
  | [], a, x => [(a, x)]
  | (k, y) :: m, a, x =>
    if a < k then (a, x) :: (k, y) :: m else if a = k then (a, x) :: m else (k, y) :: write m a x

/-- The canonical form: every number below `size`, and numbers strictly rising. -/
def wf {α : Type} (size : Nat) : List (Nat × α) → Bool
  | [] => true
  | (k, _) :: m => decide (k < size) && m.all (fun c => decide (k < c.1)) && wf size m

/-- The memory whose numbers `k, k+1, ...` hold the list's elements in order, every one of them written. -/
def listedFrom {α : Type} : Nat → List α → List (Nat × α)
  | _, [] => []
  | k, x :: xs => (k, x) :: listedFrom (k + 1) xs

/-- All entries written from number 0: what a table build leaves in the LUT (R130, R142, R144). -/
def ofTable {α : Type} (t : List α) : List (Nat × α) := listedFrom 0 t

/-- The byte lanes of a 64-bit value, lane `i` being `v[8i+7:8i]` (R64). -/
def lanes (v : Word) : List Byte := (List.range 8).map (fun i => v.extractLsb' (8 * i) 8)

/-- The value of byte lanes, the first lane least significant (R64, R194). -/
def ofLanes : List Byte → Word
  | [] => 0#64
  | b :: bs => b.setWidth 64 ||| (ofLanes bs <<< 8)

/-- `MemWrite` of bytes at `a, a+1, ...` in increasing order (R193). -/
def writeBytes : List Host.Cell → Nat → List Byte → List Host.Cell
  | m, _, [] => m
  | m, a, b :: bs => writeBytes (write m a b) (a + 1) bs

/-- The `n` bytes at `a, a+1, ...`, or none where one of them is unwritten (R194). -/
def readBytes (m : List Host.Cell) : Nat → Nat → Option (List Byte)
  | _, 0 => some []
  | a, n + 1 =>
    match read m a, readBytes m (a + 1) n with
    | some b, some bs => some (b :: bs)
    | _, _ => none

/-- `MemRead(DBUF, a, 8)`: the little-endian value of the 8 bytes at `a` (R15, R64). -/
def read64 (m : List Host.Cell) (a : Nat) : Option Word := (readBytes m a 8).map ofLanes

/-- The 8-byte little-endian write (R64, R193). -/
def write64 (m : List Host.Cell) (a : Nat) (v : Word) : List Host.Cell := writeBytes m a (lanes v)

end Sys2Proof.Machine.Memory
end

