-- ==== Sys2Proof/Machine/State.lean ====
section
/-! DEFINITION. The machine's state as plain data, holding everything the spec gives the engine (10_state.md), the host's
program (R37), the reasons a step can stop (R197), and the state after reset (R41). -/

namespace Sys2Proof.Machine

/-- STATUS.CAUSE, the outcome of the most recent command; the code 3 is never produced (R31, R32). -/
inductive Cause where
  /-- 0: completed without error. -/
  | none
  /-- 1: InvalidParameters. -/
  | invalidParameters
  /-- 2: IllegalCommand. -/
  | illegalCommand
deriving DecidableEq, Repr

/-- The two errors a command can raise (R210, R211). -/
inductive CommandError where
  | invalidParameters
  | illegalCommand
deriving DecidableEq, Repr

/-- STATUS (r = 10) by its fields (R31). -/
structure Status where
  cause : Cause
  valid : Bool
  tblv : Bool
  errs : Bool
  ills : Bool
deriving DecidableEq, Repr

/-- A register number with the name R20 gives it; 13 to 15 are reserved (R35). -/
inductive Reg where
  | width | poly | init | final | ctrl | mask | msb | crc | rflIn | rflOut | status | cmd | id
  | reserved (r : Nat)
deriving DecidableEq, Repr

/-- The direction, width and data of a bus access (R62). -/
inductive BusOp where
  | read8 | read16 | read32 | read64
  | write8 (b : Byte)
  | write16 (v : BitVec 16)
  | write32 (v : BitVec 32)
  | write64 (v : Word)
deriving DecidableEq, Repr

/-- One bus access: the host that issues it (R219: the engine never checks it), its bus address, and what it does. -/
structure Access where
  host : Nat
  addr : Nat
  op : BusOp
deriving DecidableEq, Repr

/-- What a bus access means to the engine (R61 to R63, R66; 47_host_access.md). -/
inductive Transaction where
  /-- `WR r, v` (R190). -/
  | wr (r : Reg) (v : Word)
  /-- `RD r` (R191). -/
  | rd (r : Reg)
  /-- `LUTRD k` (R192). -/
  | lutrd (k : Nat)
  /-- A 64-bit write in the LUT window (R192). -/
  | lutwr (k : Nat) (v : Word)
  /-- `BWR8 a, b` (R193). -/
  | bwr8 (a : Nat) (b : Byte)
  /-- `BWR64 a, v` (R193). -/
  | bwr64 (a : Nat) (v : Word)
  /-- `BRD8 a` (R194). -/
  | brd8 (a : Nat)
  /-- `BRD64 a` (R194). -/
  | brd64 (a : Nat)
  /-- An access to the reserved offsets 0x0080-0x07FF (R66). -/
  | reserved
  /-- A width or alignment the window does not take (R62, R63, R212). -/
  | busError
  /-- An address outside the engine's window (R61). -/
  | outside
deriving DecidableEq, Repr

/-- The value a transaction returns to its host (R197, outcome *value*). -/
inductive Response where
  /-- A write, or nothing performed yet. -/
  | noValue
  /-- The value of an 8-bit read. -/
  | byte (b : Byte)
  /-- The value of a 64-bit read. -/
  | word (v : Word)
deriving DecidableEq, Repr

/-- Why the machine stops with a fault (R197). No fault writes any state. -/
inductive Fault where
  /-- The access has a width or alignment its window does not take (R62, R63, R212). Raised by the bus decode.
  Safe: the hardware answers the host with an error and goes on. -/
  | busError
  /-- A DBUF byte that nothing has written is read, by BRD8, BRD64 or COMPUTE (R180, R194, U5).
  Safe: the hardware returns an unspecified value. -/
  | unwrittenDbufByte
  /-- A LUT entry that nothing has written is read, by LUTRD, UPDATE or COMPUTE (R192, R197, U4).
  Safe: the hardware returns an unspecified value. -/
  | unwrittenLutEntry
  /-- The address is not in the engine's 0x2000-byte window (R61). Raised by the bus decode.
  Safe: the access is not the engine's, and nothing is claimed of it (log entry 7). -/
  | outsideWindow
deriving DecidableEq, Repr

/-- Why the machine refuses (R197). No refusal writes any state. -/
inductive Refusal where
  /-- A command without a meaning in this model, by its mnemonic. Raised by `exec` only. Safe. -/
  | notModelled (mnemonic : String)
  /-- A write to RFL_OUT or ID, and in STATIC to WIDTH, POLY, MASK or MSB (R35). Raised by register writes.
  Safe: the hardware ignores the write. -/
  | readOnlyRegister
  /-- A write or read of a register number 13 to 15 (R35). Raised by register accesses.
  Safe: the hardware ignores the write and reads 0. -/
  | reservedRegister
  /-- An access to the offsets 0x0080-0x07FF (R66). Raised by the bus decode.
  Safe: the hardware ignores the write and reads 0. -/
  | reservedOffset
  /-- A write to the LUT window (R192). Raised by the bus decode. Safe: the hardware ignores the write. -/
  | lutWindowWrite
  /-- The build is STATIC and its `(W_S, P_S)` is not valid (R11). Raised by every step. Safe: there is no such engine. -/
  | illegalBuild
deriving DecidableEq, Repr

/-- The whole state: the context registers (R20), STATUS (R31), the memories with their written marks (R36, R38, R39), the
host's program and the position in it (R37), the value last returned and the two marks (R197), and the two parameters
the engine is built and placed with (R10, R11), which no step changes. -/
structure State where
  /-- `VARIANT`, `W_S`, `P_S` (R4, R11). -/
  build : Build
  /-- `ENGINE_BASE` (R10). -/
  engineBase : Nat
  /-- WIDTH (r = 0), 8 bits (R21). -/
  width : BitVec 8
  /-- POLY (r = 1) (R23). -/
  poly : Word
  /-- INIT (r = 2) (R24). -/
  init : Word
  /-- FINAL (r = 3) (R25). -/
  final : Word
  /-- CTRL (r = 4), REFIN and REFOUT (R26). -/
  ctrl : BitVec 2
  /-- MASK (r = 5) (R27). -/
  mask : Word
  /-- MSB (r = 6) (R28). -/
  msb : Word
  /-- CRC (r = 7) (R29). -/
  crc : Word
  /-- RFL_IN (r = 8) (R30). -/
  rflIn : Word
  /-- RFL_OUT (r = 9) (R30). -/
  rflOut : Word
  /-- STATUS (r = 10) (R31). -/
  status : Status
  /-- LUT, 256 entries; an entry that is not listed is unwritten (R36, R39). -/
  lut : List (Nat × Word)
  /-- DBUF, 4096 bytes; a byte that is not listed is unwritten (R38, R39). -/
  dbuf : List Host.Cell
  /-- The transactions not yet performed, in arrival order (R37, R70). -/
  pending : List Access
  /-- The index of the next transaction in the program: how many have been performed (R37). -/
  position : Nat
  /-- The value the most recent transaction returned. The model's own field (log entry 4). -/
  response : Response
  /-- Set by a fault and never cleared (R197). -/
  faultMark : Bool
  /-- Set by a refusal and never cleared (R197). -/
  refusedMark : Bool
deriving DecidableEq, Repr

/-- The outcome of a step of this machine. -/
abbrev Outcome := Host.Outcome State Fault Refusal

/-- STATUS after reset (R41). -/
def Status.reset (tblv : Bool) : Status := ⟨.none, false, tblv, false, false⟩

/-- The state after reset of a `DYNAMIC` engine placed at `base` (R41). -/
def State.resetDynamic (base : Nat) : State where
  build := .dynamic
  engineBase := base
  width := 0#8
  poly := 0#64
  init := 0#64
  final := 0#64
  ctrl := 0#2
  mask := 0#64
  msb := 0#64
  crc := 0#64
  rflIn := 0#64
  rflOut := 0#64
  status := Status.reset false
  lut := []
  dbuf := []
  pending := []
  position := 0
  response := .noValue
  faultMark := false
  refusedMark := false

/-- The state after reset of an engine of either variant placed at `base`: a `STATIC` engine holds its fixed parameters and
their derived values, TBLV = 1 and the table in its ROM (R41, R144). -/
def State.resetOf (b : Build) (base : Nat) : State :=
  match b with
  | .dynamic => State.resetDynamic base
  | .static w p =>
    { State.resetDynamic base with
      build := .static w p
      width := w
      poly := p
      mask := deriveMask w.toNat
      msb := deriveMsb w.toNat
      status := Status.reset true
      lut := Memory.ofTable (genTable w.toNat p) }

/-- The machine right after reset: this instance is `DYNAMIC` (R4, R41, R240). -/
def State.reset : State := State.resetOf Config.build Config.engineBase

end Sys2Proof.Machine
end

