-- ==== Sys2Proof/Machine/Flags.lean ====
section
/-! DEFINITION. STATUS as a word and every way its fields change (R31, R32 of 10_state.md). -/

namespace Sys2Proof.Machine

/-- The code of CAUSE in STATUS[1:0] (R31). -/
def Cause.code : Cause → Word
  | .none => 0#64
  | .invalidParameters => 1#64
  | .illegalCommand => 2#64

/-- A one-bit field at position `i` of a word. -/
def flagBit (b : Bool) (i : Nat) : Word := if b then 1#64 <<< i else 0#64

/-- STATUS assembled from its fields; bits [63:6] read 0 (R31, R191). -/
def Status.toWord (st : Status) : Word :=
  st.cause.code ||| flagBit st.valid 2 ||| flagBit st.tblv 3 ||| flagBit st.errs 4 ||| flagBit st.ills 5

/-- A command that completes without a raise: `CAUSE <- 0` (R32). -/
def Status.complete (st : Status) : Status := { st with cause := .none }

/-- A command that raises: its code in CAUSE and its sticky bit set (R32). -/
def Status.raise (e : CommandError) (st : Status) : Status :=
  match e with
  | .invalidParameters => { st with cause := .invalidParameters, errs := true }
  | .illegalCommand => { st with cause := .illegalCommand, ills := true }

/-- The host's write of `v` to STATUS: a 1 in bit 4 clears ERRS, a 1 in bit 5 clears ILLS, the rest is ignored (R31). -/
def Status.writeOneToClear (v : Word) (st : Status) : Status :=
  { st with errs := st.errs && !v.getLsbD 4, ills := st.ills && !v.getLsbD 5 }

end Sys2Proof.Machine
end

