-- ==== Sys2Proof/Machine/Ops.lean ====
section
/-! DEFINITION. The named operations every command and transaction is built from: the validity check, raising an error,
completing, building the table, storing a parameter register, answering a read. -/

namespace Sys2Proof.Machine

/-- `valid(ctx)`: it reads WIDTH, POLY, MSB and MASK and nothing else (R120). -/
def State.valid (s : State) : Bool := validParams s.width s.poly s.msb s.mask

/-- CTRL.REFIN (R26). -/
def State.refin (s : State) : Bool := s.ctrl.getLsbD 0

/-- CTRL.REFOUT (R26). -/
def State.refout (s : State) : Bool := s.ctrl.getLsbD 1

/-- What a command that reads the LUT needs: a valid context and TBLV = 1 (R160, R180). -/
def State.ready (s : State) : Bool := s.valid && s.status.tblv

/-- Raising an error, the engine's only form of exception: STATUS records it and nothing else is written. There is no saved
state, no vector, no mode and no return (R32, R210, R211, R216, R217). -/
def raise (e : CommandError) (s : State) : State := { s with status := s.status.raise e }

/-- The end of a command that completes: `CAUSE <- 0` (R32). -/
def complete (s : State) : State := { s with status := s.status.complete }

/-- `for k in 0..255: LUT[k] <- gen_table(WIDTH, POLY)[k]` in `DYNAMIC`; the ROM of `STATIC` is not written. Either way
`TBLV <- 1` (R130, R142). -/
def buildTable (s : State) : State :=
  let lut := match s.build with
    | .dynamic => Memory.ofTable (genTable s.width.toNat s.poly)
    | .static _ _ => s.lut
  { s with lut := lut, status := { s.status with tblv := true } }

/-- `TBLV <- 0`, what a host write to WIDTH, POLY, MASK or MSB does besides storing (R31). -/
def clearTblv (s : State) : State := { s with status := { s.status with tblv := false } }

/-- A host write to a parameter register, `s` being the state with the value stored: in `DYNAMIC` it also clears TBLV; in
`STATIC` the register is read-only (R31, R35, R190). -/
def storeParameter (s : State) : Outcome :=
  match s.build with
  | .dynamic => .next (clearTblv s)
  | .static _ _ => .refused .readOnlyRegister

/-- A read returns a value and changes nothing else (R68, R197). -/
def respond (r : Response) (s : State) : State := { s with response := r }

/-- A read that returns what a memory holds, or the fault where it holds nothing (R192, R194). -/
def respondOr (f : Fault) (r : Option Response) (s : State) : Outcome :=
  match r with
  | some v => .next (respond v s)
  | none => .fault f

/-- The transaction is taken from the program and the position advances by 1 (R37). -/
def State.takeTransaction (s : State) (rest : List Access) : State :=
  { s with pending := rest, position := s.position + 1, response := .noValue }

end Sys2Proof.Machine
end

