-- ==== Sys2Proof/Machine/Operands.lean ====
section
/-! DEFINITION. The operand forms of the commands (R92 to R95 of 30_encoding.md): the input byte, the buffer addresses, and
the LFSR step a byte makes. -/

namespace Sys2Proof.Machine

/-- The address of byte `i` of a COMPUTE at OFF: `(OFF + i) mod 4096` (R95). -/
def dbufAddress (off i : Nat) : Nat := (off + i) % dbufBytes

/-- The addresses COMPUTE OFF, LEN reads, in order (R95, R180). -/
def dbufAddresses (off len : Nat) : List Nat := (List.range len).map (dbufAddress off)

/-- The LUT index a byte selects, with REFIN, WIDTH and CRC taken from the registers (R160 steps 1 to 3). -/
def State.lutIndexOf (s : State) (b : Byte) : Nat := lutIndex s.width.toNat s.crc (inputByte s.refin b)

/-- The body of R160: one byte mixed into CRC through its LUT entry. It writes CRC only. -/
def absorb (b : Byte) (s : State) : Except Fault State :=
  match Memory.read s.lut (s.lutIndexOf b) with
  | some e => .ok { s with crc := mixEntry s.crc s.mask e }
  | none => .error .unwrittenLutEntry

/-- The loop of R180: the bytes at the given addresses, in order. -/
def absorbFrom : List Nat → State → Except Fault State
  | [], s => .ok s
  | a :: as, s =>
    match Memory.read s.dbuf a with
    | none => .error .unwrittenDbufByte
    | some b =>
      match absorb b s with
      | .ok t => absorbFrom as t
      | .error f => .error f

/-- The end of a command whose loop may have stopped on an unwritten cell (R197). -/
def completeOr (r : Except Fault State) : Outcome :=
  match r with
  | .ok s => .next (complete s)
  | .error f => .fault f

end Sys2Proof.Machine
end

