-- ==== Sys2Proof/Machine/Checker.lean ====
section
/-! DEFINITION. The parameter checker's command, VALIDATE (40_validation.md). -/

namespace Sys2Proof.Machine

/-- VALIDATE: VALID gets the predicate's value, CAUSE gets 0; it never raises (R121). -/
def execValidate (s : State) : Outcome :=
  .next (complete { s with status := { s.status with valid := s.valid } })

end Sys2Proof.Machine
end

