-- ==== Sys2Proof/Machine/Generator.lean ====
section
/-! DEFINITION. The commands that derive the context and build the table, INIT (41_initialization.md) and GENTABLE
(42_table_generation.md). -/

namespace Sys2Proof.Machine

/-- The writes of a successful INIT below its commit point (R130). -/
def commitContext (s : State) : State :=
  let msk := deriveMask s.width.toNat
  { s with
    msb := deriveMsb s.width.toNat
    mask := msk
    init := s.init &&& msk
    final := s.final &&& msk
    crc := s.init &&& msk }

/-- INIT: the width is checked, then the candidate context; on failure only STATUS is written (R130, R131). -/
def execInit (s : State) : Outcome :=
  if legalWidth s.width = false then .next (raise .invalidParameters s)
  else if validCandidate s.width s.poly = false then .next (raise .invalidParameters s)
  else .next (complete (buildTable (commitContext s)))

/-- GENTABLE: the stored context is checked again, then the table is built (R142). -/
def execGentable (s : State) : Outcome :=
  if s.valid = false then .next (raise .invalidParameters s)
  else .next (complete (buildTable s))

end Sys2Proof.Machine
end

