-- ==== Sys2Proof/Machine/Lfsr.lean ====
section
/-! DEFINITION. The commands of the LFSR-update datapath: UPDATE (44_update.md), COMPUTE (46_compute.md) and FINALIZE
(45_finalize.md). -/

namespace Sys2Proof.Machine

/-- UPDATE BYTE (R160). -/
def execUpdate (b : Byte) (s : State) : Outcome :=
  if s.ready = false then .next (raise .invalidParameters s)
  else completeOr (absorb b s)

/-- COMPUTE OFF, LEN: the check is made once, before any byte; it does not finalize (R180). -/
def execCompute (off len : Nat) (s : State) : Outcome :=
  if s.ready = false then .next (raise .invalidParameters s)
  else completeOr (absorbFrom (dbufAddresses off len) s)

/-- FINALIZE: it does not need TBLV, and the result stays in CRC (R170). -/
def execFinalize (s : State) : Outcome :=
  if s.valid = false then .next (raise .invalidParameters s)
  else .next (complete { s with crc := finalValue s.refout s.width.toNat s.crc s.final s.mask })

end Sys2Proof.Machine
end

