-- ==== Sys2Proof/Machine/Reflection.lean ====
section
/-! DEFINITION. The bit-reflection command, REFLECT (43_reflection.md). -/

namespace Sys2Proof.Machine

/-- REFLECT N: `RFL_OUT <- reflect(RFL_IN, N)`; it reads no context and never raises (R151). -/
def execReflect (n : Nat) (s : State) : Outcome :=
  .next (complete { s with rflOut := reflect s.rflIn n })

end Sys2Proof.Machine
end

