-- ==== Sys2Proof/Machine/Dispatch.lean ====
section
/-! DEFINITION. Which meaning each command has (R195 of 47_host_access.md). -/

namespace Sys2Proof.Machine

def exec (i : Instr) (s : State) : Host.Outcome State Fault Refusal :=
  match i with
  | .validate => Sys2Proof.Machine.execValidate s
  | .init => Sys2Proof.Machine.execInit s
  | .gentable => Sys2Proof.Machine.execGentable s
  | .update b => Sys2Proof.Machine.execUpdate b s
  | .compute off len => Sys2Proof.Machine.execCompute off len s
  | .finalize => Sys2Proof.Machine.execFinalize s
  | .reflect n => Sys2Proof.Machine.execReflect n s

end Sys2Proof.Machine
end

