-- ==== Sys2Proof/Machine/Transactions.lean ====
section
/-! DEFINITION. The host's transactions (47_host_access.md): how a bus access is decoded by the window's map, and what each
transaction does. -/

namespace Sys2Proof.Machine

/-- The size of the engine's window (R61). -/
abbrev windowBytes : Nat := 0x2000

/-- Where the reserved offsets start (R61). -/
abbrev reservedOffset : Nat := 0x0080

/-- Where the LUT space starts (R61). -/
abbrev lutOffset : Nat := 0x0800

/-- Where the DBUF space starts (R61). -/
abbrev dbufOffset : Nat := 0x1000

/-- The register a number names (R20). -/
def Reg.ofNumber : Nat → Reg
  | 0 => .width
  | 1 => .poly
  | 2 => .init
  | 3 => .final
  | 4 => .ctrl
  | 5 => .mask
  | 6 => .msb
  | 7 => .crc
  | 8 => .rflIn
  | 9 => .rflOut
  | 10 => .status
  | 11 => .cmd
  | 12 => .id
  | r => .reserved r

/-- The number of a register (R20). -/
def Reg.number : Reg → Nat
  | .width => 0
  | .poly => 1
  | .init => 2
  | .final => 3
  | .ctrl => 4
  | .mask => 5
  | .msb => 6
  | .crc => 7
  | .rflIn => 8
  | .rflOut => 9
  | .status => 10
  | .cmd => 11
  | .id => 12
  | .reserved r => r

/-- The window an 8-bit access falls in: only DBUF takes it (R62). -/
def decodeNarrow (off : Nat) (inDbuf : Nat → Transaction) : Transaction :=
  if off < reservedOffset then .busError
  else if off < lutOffset then .reserved
  else if off < dbufOffset then .busError
  else inDbuf (off - dbufOffset)

/-- The window a 64-bit access falls in, once it is aligned (R61, R62, R63). -/
def decodeWide (off : Nat) (inRegs : Reg → Transaction) (inLut inDbuf : Nat → Transaction) : Transaction :=
  if off % 8 ≠ 0 then .busError
  else if off < reservedOffset then inRegs (Reg.ofNumber (off / 8))
  else if off < lutOffset then .reserved
  else if off < dbufOffset then inLut ((off - lutOffset) / 8)
  else inDbuf (off - dbufOffset)

/-- What an access at an offset of the window means. BusError is decided on the access itself, before anything else
(R62, R63, R214). -/
def decodeOffset (off : Nat) : BusOp → Transaction
  | .read8 => decodeNarrow off .brd8
  | .write8 b => decodeNarrow off (.bwr8 · b)
  | .read16 => .busError
  | .write16 _ => .busError
  | .read32 => .busError
  | .write32 _ => .busError
  | .read64 => decodeWide off .rd .lutrd .brd64
  | .write64 v => decodeWide off (.wr · v) (.lutwr · v) (.bwr64 · v)

/-- What a bus access means to an engine at `base` (R10, R61). -/
def decodeAccess (base : Nat) (a : Access) : Transaction :=
  if a.addr < base then .outside
  else if base + windowBytes ≤ a.addr then .outside
  else decodeOffset (a.addr - base) a.op

/-- `dispatch(v)`: an illegal value raises IllegalCommand, a command runs (R195, R211). -/
def dispatch (v : Word) (s : State) : Outcome :=
  match decode v with
  | .illegal _ => .next (raise .illegalCommand s)
  | .command i => exec i s

/-- `WR r, v` (R190). A write to a read-only or reserved register is refused (R35). -/
def writeRegister (r : Reg) (v : Word) (s : State) : Outcome :=
  match r with
  | .width => storeParameter { s with width := v.setWidth 8 }
  | .poly => storeParameter { s with poly := v }
  | .init => .next { s with init := v }
  | .final => .next { s with final := v }
  | .ctrl => .next { s with ctrl := v.setWidth 2 }
  | .mask => storeParameter { s with mask := v }
  | .msb => storeParameter { s with msb := v }
  | .crc => .next { s with crc := v }
  | .rflIn => .next { s with rflIn := v }
  | .rflOut => .refused .readOnlyRegister
  | .status => .next { s with status := s.status.writeOneToClear v }
  | .cmd => dispatch v s
  | .id => .refused .readOnlyRegister
  | .reserved _ => .refused .reservedRegister

/-- The value `RD r` returns, none for a reserved number (R191). -/
def registerValue (s : State) : Reg → Option Word
  | .width => some (s.width.setWidth 64)
  | .poly => some s.poly
  | .init => some s.init
  | .final => some s.final
  | .ctrl => some (s.ctrl.setWidth 64)
  | .mask => some s.mask
  | .msb => some s.msb
  | .crc => some s.crc
  | .rflIn => some s.rflIn
  | .rflOut => some s.rflOut
  | .status => some s.status.toWord
  | .cmd => some 0#64
  | .id => some (idWord s.build)
  | .reserved _ => none

/-- `RD r` (R191). A read of a reserved number is refused (R35). -/
def readRegister (r : Reg) (s : State) : Outcome :=
  match registerValue s r with
  | some v => .next (respond (.word v) s)
  | none => .refused .reservedRegister

/-- `LUTRD k` (R192). -/
def readLut (k : Nat) (s : State) : Outcome :=
  respondOr .unwrittenLutEntry ((Memory.read s.lut k).map .word) s

/-- `BWR8 a, b` (R193). -/
def writeBuffer8 (a : Nat) (b : Byte) (s : State) : Outcome := .next { s with dbuf := Memory.write s.dbuf a b }

/-- `BWR64 a, v` (R193). -/
def writeBuffer64 (a : Nat) (v : Word) (s : State) : Outcome := .next { s with dbuf := Memory.write64 s.dbuf a v }

/-- `BRD8 a` (R194). -/
def readBuffer8 (a : Nat) (s : State) : Outcome :=
  respondOr .unwrittenDbufByte ((Memory.read s.dbuf a).map .byte) s

/-- `BRD64 a` (R194). -/
def readBuffer64 (a : Nat) (s : State) : Outcome :=
  respondOr .unwrittenDbufByte ((Memory.read64 s.dbuf a).map .word) s

/-- What a decoded transaction does (R190 to R194, R197). -/
def performTransaction (t : Transaction) (s : State) : Outcome :=
  match t with
  | .wr r v => writeRegister r v s
  | .rd r => readRegister r s
  | .lutrd k => readLut k s
  | .lutwr _ _ => .refused .lutWindowWrite
  | .bwr8 a b => writeBuffer8 a b s
  | .bwr64 a v => writeBuffer64 a v s
  | .brd8 a => readBuffer8 a s
  | .brd64 a => readBuffer64 a s
  | .reserved => .refused .reservedOffset
  | .busError => .fault .busError
  | .outside => .fault .outsideWindow

/-- One bus access (R197). -/
def perform (a : Access) (s : State) : Outcome := performTransaction (decodeAccess s.engineBase a) s

/-- The bus access of a command: a 64-bit write to CMD, register 11 at offset 0x058 (R61, R90). -/
def commandAccess (base host : Nat) (v : Word) : Access :=
  { host := host, addr := base + 8 * Reg.number .cmd, op := .write64 v }

end Sys2Proof.Machine
end

