-- ==== Sys2Proof/Machine/Step.lean ====
section
/-! DEFINITION. One step of the machine: the next transaction of the host's program (R37, R197). -/

namespace Sys2Proof.Machine

/-- One step performs the next transaction (R197). With no transaction left the engine does nothing and keeps its state
(R224; DEDUCED, safe, log entry 2). An illegal STATIC build is refused (R11). -/
def step (s : State) : Host.Outcome State Fault Refusal :=
  if legalBuild s.build then
    match s.pending with
    | [] => .next s
    | a :: rest => perform a (s.takeTransaction rest)
  else .refused .illegalBuild

/-- `s` with the command whose bits are `w` as the very next transaction: a 64-bit write of `w` to CMD by host 0
(R33, R90; log entry 1). Every bit from `nbits` up is 0. -/
def State.withFetchWord (s : State) (nbits w : Nat) : State :=
  { s with pending := commandAccess s.engineBase 0 (BitVec.ofNat 64 (w % 2 ^ nbits)) :: s.pending }

end Sys2Proof.Machine
end

