-- ==== Sys2Proof/Machine/Program.lean ====
section
/-! DEFINITION. Programs: the bus access of each transaction (R101, R190 to R194), the pseudo-instructions (R102), runs that
record their stops in the two marks (R197), and the interleavings of several hosts (R71). -/

namespace Sys2Proof.Machine

/-- The offset and operation of a transaction, for those a host can ask for by name (R61, R190 to R194). -/
def Transaction.encoding : Transaction → Option (Nat × BusOp)
  | .wr r v => some (8 * r.number, .write64 v)
  | .rd r => some (8 * r.number, .read64)
  | .lutrd k => some (lutOffset + 8 * k, .read64)
  | .lutwr k v => some (lutOffset + 8 * k, .write64 v)
  | .bwr8 a b => some (dbufOffset + a, .write8 b)
  | .bwr64 a v => some (dbufOffset + a, .write64 v)
  | .brd8 a => some (dbufOffset + a, .read8)
  | .brd64 a => some (dbufOffset + a, .read64)
  | .reserved => none
  | .busError => none
  | .outside => none

/-- The register names R20 gives a number, and 13 to 15 (R20). -/
def Reg.inRange : Reg → Bool
  | .reserved r => decide (13 ≤ r) && decide (r < 16)
  | _ => true

/-- The operand ranges of the transactions (R190 to R194). -/
def Transaction.wellFormed : Transaction → Bool
  | .wr r _ => r.inRange
  | .rd r => r.inRange
  | .lutrd k => decide (k < tableEntries)
  | .lutwr k _ => decide (k < tableEntries)
  | .bwr8 a _ => decide (a < dbufBytes)
  | .bwr64 a _ => decide (a < dbufBytes) && decide (a % 8 = 0)
  | .brd8 a => decide (a < dbufBytes)
  | .brd64 a => decide (a < dbufBytes) && decide (a % 8 = 0)
  | .reserved => false
  | .busError => false
  | .outside => false

/-- The accesses of a list of transactions that one host issues to an engine at `base`; what has no encoding adds none. -/
def accesses (base host : Nat) (ts : List Transaction) : List Access :=
  ts.filterMap (fun t => t.encoding.map (fun e => { host := host, addr := base + e.1, op := e.2 }))

/-- A command line written alone means `WR CMD, <encoding>` (R101). -/
def commandLine (i : Instr) : Transaction := .wr .cmd (encode i)

/-- `SETUP w, p, i, f, ri, ro` (R102). -/
def setup (w p i f : Word) (ri ro : Bool) : List Transaction :=
  [.wr .width w, .wr .poly p, .wr .init i, .wr .final f, .wr .ctrl (flagBit ri 0 ||| flagBit ro 1), commandLine .init]

/-- `UPDATES b0, ..., bk` (R102). -/
def updates (bs : List Byte) : List Transaction := bs.map (fun b => commandLine (.update b))

/-- `LOADBUF a, b0, ..., bk` (R102). -/
def loadBuffer (a : Nat) : List Byte → List Transaction
  | [] => []
  | b :: bs => .bwr8 a b :: loadBuffer (a + 1) bs

/-- `CRCBUF off, len` (R102). -/
def crcBuffer (off len : Nat) : List Transaction :=
  [commandLine (.compute off len), commandLine .finalize, .rd .crc]

/-- A step that records a stop in the marks instead of answering it: the fault and refused marks of R197 are set here and
never cleared, and a marked state makes no further step (U15, U12 of 93_implementation_defined.md). -/
def stepMarked (s : State) : State :=
  if s.faultMark || s.refusedMark then s
  else
    match step s with
    | .next t => t
    | .fault _ => { s with faultMark := true }
    | .refused _ => { s with refusedMark := true }

/-- `n` recorded steps. -/
def runMarked : Nat → State → State
  | 0, s => s
  | n + 1, s => runMarked n (stepMarked s)

/-- `n` commands one after another, as the host issues them: the sequential composition of their meanings (R70, R161). -/
def execAll : List Instr → State → Outcome
  | [], s => .next s
  | i :: is, s =>
    match exec i s with
    | .next t => execAll is t
    | .fault f => .fault f
    | .refused r => .refused r

/-- The sequential composition of the rules of a list of transactions, in arrival order (R70). -/
def performAll : List Access → State → Outcome
  | [], s => .next s
  | a :: rest, s =>
    match perform a (s.takeTransaction rest) with
    | .next t => performAll rest t
    | .fault f => .fault f
    | .refused r => .refused r

/-- Several engines: a transaction of the `k`-th one is a step of its own state and of no other (R222). -/
def stepInstance (k : Nat) (engines : List State) : List State := engines.modify k stepMarked

/-- The transactions of one host in an arrival order, in that order. -/
def ofHost (h : Nat) (p : List Access) : List Access := p.filter (fun a => decide (a.host = h))

/-- `p` is an arrival order of the hosts' programs that keeps each host's own order (R71). -/
def Interleaves (p : List Access) (programs : Nat → List Access) : Prop := ∀ h, ofHost h p = programs h

end Sys2Proof.Machine
end

