-- ==== Sys2Proof/Safety.lean ====
section
/-! DEFINITION. What statements about runs are made of: the invariant of 10_state.md (R40), the states a run reaches, and
what one state has in common with another. -/

namespace Sys2Proof.Machine

/-- The bounds every state reached keeps: LUT entries 0 to 255, DBUF bytes 0 to 4095, each listed once in order. -/
def MemoriesCanonical (s : State) : Prop :=
  Memory.wf tableEntries s.lut = true ∧ Memory.wf dbufBytes s.dbuf = true

/-- R40: TBLV = 1 means a valid context and `LUT[k] = gen_table(WIDTH, POLY)[k]` for every `k`. -/
def TableCurrent (s : State) : Prop :=
  s.status.tblv = true →
    s.valid = true ∧ ∀ k, k < tableEntries → Memory.read s.lut k = (genTable s.width.toNat s.poly)[k]?

/-- What a `STATIC` build fixes: the parameters, their derived values, TBLV and the ROM (R27, R28, R31, R36, R41, R144). -/
def RomIntact (s : State) : Prop :=
  match s.build with
  | .dynamic => True
  | .static w p =>
    s.width = w ∧ s.poly = p ∧ s.msb = deriveMsb w.toNat ∧ s.mask = deriveMask w.toNat ∧ s.status.tblv = true ∧
      ∀ k, k < tableEntries → Memory.read s.lut k = (genTable w.toNat p)[k]?

/-- The invariant of the machine: R40 with the canonical form of the memories and what a `STATIC` build fixes. -/
def Inv (s : State) : Prop := MemoriesCanonical s ∧ TableCurrent s ∧ RomIntact s

/-- The states a run from reset reaches, whatever program the hosts issue (R40, R240). -/
inductive Reachable (b : Build) (base : Nat) : State → Prop where
  | start (p : List Access) : Reachable b base { State.resetOf b base with pending := p }
  | step (s t : State) : Reachable b base s → step s = .next t → Reachable b base t

/-- No fault and no refusal recorded: the premise of a claim about a program (R197). -/
def NoStop (s : State) : Prop := s.faultMark = false ∧ s.refusedMark = false

/-- Every DBUF byte of a COMPUTE is written (R180, D41 of 92_eei_decisions.md). -/
def BufferWritten (s : State) (off len : Nat) : Prop :=
  ∀ i, i < len → (Memory.read s.dbuf (dbufAddress off i)).isSome = true

/-- Every LUT entry is written (R39). -/
def LutWritten (s : State) : Prop := ∀ k, k < tableEntries → (Memory.read s.lut k).isSome = true

/-- What no command writes: WIDTH, POLY, CTRL, RFL_IN, DBUF, the build, the program and its position, the returned value
and the marks (R30, R38, R190). -/
def CommandKeeps (s t : State) : Prop :=
  t.width = s.width ∧ t.poly = s.poly ∧ t.ctrl = s.ctrl ∧ t.rflIn = s.rflIn ∧
    (∀ a, Memory.read t.dbuf a = Memory.read s.dbuf a) ∧ t.build = s.build ∧ t.engineBase = s.engineBase ∧
    t.pending = s.pending ∧ t.position = s.position ∧ t.response = s.response ∧
    t.faultMark = s.faultMark ∧ t.refusedMark = s.refusedMark

/-- MASK, MSB, INIT and FINAL are as they were. -/
def ContextKept (s t : State) : Prop :=
  t.mask = s.mask ∧ t.msb = s.msb ∧ t.init = s.init ∧ t.final = s.final

/-- Every LUT entry reads as it did, written or not. -/
def LutKept (s t : State) : Prop := ∀ k, Memory.read t.lut k = Memory.read s.lut k

/-- The register bits R20 lists as implemented. -/
def implementedBits : Reg → Word
  | .width => 0xFF#64
  | .ctrl => 0x3#64
  | .reserved _ => 0#64
  | _ => BitVec.allOnes 64

/-- The registers a host write of which clears TBLV (R31). -/
def isParameter : Reg → Bool
  | .width | .poly | .mask | .msb => true
  | _ => false

/-- The transactions that only read (R191, R192, R194). -/
def isRead : Transaction → Bool
  | .rd _ | .lutrd _ | .brd8 _ | .brd64 _ => true
  | _ => false

/-- The width of an access in bytes (R62). -/
def accessBytes : BusOp → Nat
  | .read8 | .write8 _ => 1
  | .read16 | .write16 _ => 2
  | .read32 | .write32 _ => 4
  | .read64 | .write64 _ => 8

/-- The clauses of R120 on WIDTH and POLY, as numbers. -/
abbrev ConsistentCandidate (w : Nat) (poly : Word) : Prop :=
  poly ≠ 0#64 ∧ w ≠ 0 ∧ w % 8 = 0 ∧ w ≤ 64 ∧ poly.toNat < 2 ^ w

/-- All clauses of R120, as numbers: MSB is the bit `w - 1` alone and MASK the low `w` bits. -/
abbrev ConsistentParameters (w : Nat) (poly msb mask : Word) : Prop :=
  ConsistentCandidate w poly ∧ msb.toNat = 2 ^ (w - 1) ∧ mask.toNat = 2 ^ w - 1

/-- One byte of the bit-serial LFSR: eight polynomial-division steps (R162). -/
def serialUpdate (w : Nat) (poly : Word) (refin : Bool) (r : Word) (b : Byte) : Word :=
  divSteps 8 (r ^^^ (inputByte refin b <<< (w - 8))) w poly

/-- The CRC of a byte sequence by the bit-serial LFSR: seed, bytes in order, finalization (R162, R172). -/
def serialCrc (w : Nat) (poly seed final : Word) (refin refout : Bool) (bytes : List Byte) : Word :=
  finalValue refout w (bytes.foldl (serialUpdate w poly refin) (seed &&& deriveMask w)) final (deriveMask w)

/-- One byte of R160 through a table, with an entry that is absent taken as 0 (it is never absent where this is used). -/
def tableUpdate (s : State) (crc : Word) (b : Byte) : Word :=
  ((crc <<< 8) &&& s.mask) ^^^ (Memory.read s.lut (lutIndex s.width.toNat crc (inputByte s.refin b))).getD 0#64

end Sys2Proof.Machine
end

