-- ==== Sys2Proof/Certificates/Slice0/Obligations.lean ====
section
/-! DEFINITION. The statements for the provers, each from the rule of spec/ its docstring names. -/

open Sys2Proof Sys2Proof.Machine

/-! ## Encoding -/

/-- Words written out from the formats of R91 and the map of R96, with the boundary values of their operands. -/
def Obligations.SampleWordsDecode : Prop :=
  decode 0x0000000000000001#64 = .command .validate ∧
  decode 0x0000000000000002#64 = .command .init ∧
  decode 0x0000000000000003#64 = .command .gentable ∧
  decode 0x0000000000005704#64 = .command (.update 0x57#8) ∧
  decode 0x00000000009FFC05#64 = .command (.compute 4092 9) ∧
  decode 0x00000000FFFFFF05#64 = .command (.compute 4095 4095) ∧
  decode 0x0000000000000006#64 = .command .finalize ∧
  decode 0x0000000000001807#64 = .command (.reflect 24) ∧
  decode 0x0000000000007F07#64 = .command (.reflect 127) ∧
  decode 0x0000000000000000#64 = .illegal .reservedOpcode ∧
  decode 0x0000000000008007#64 = .illegal .reservedFieldSet ∧
  decode 0x0000000100000001#64 = .illegal .highBitsSet

/-- Every well-formed command, with every operand at every value its field admits, is what its encoding decodes to
(R91 to R96, R101). -/
def Obligations.DecodeOfEncodeIsTheCommand : Prop :=
  ∀ i : Instr, i.wellFormed = true → decode (encode i) = .command i

/-- A value that decodes to a command is the one encoding of that command, and the command is well formed (R91, R96). -/
def Obligations.EncodeOfDecodeIsTheValue : Prop :=
  ∀ (v : Word) (i : Instr), decode v = .command i → encode i = v ∧ i.wellFormed = true

/-- R96: a command is selected exactly when `v AND mask = match`, and its operands are its fields of `v`. -/
def Obligations.OpcodeMapSelectsCommands : Prop :=
  ∀ v : Word,
    (decode v = .command .validate ↔ v &&& 0xFFFFFFFFFFFFFFFF#64 = 0x1#64) ∧
    (decode v = .command .init ↔ v &&& 0xFFFFFFFFFFFFFFFF#64 = 0x2#64) ∧
    (decode v = .command .gentable ↔ v &&& 0xFFFFFFFFFFFFFFFF#64 = 0x3#64) ∧
    (∀ b : Byte, decode v = .command (.update b) ↔
      v &&& 0xFFFFFFFFFFFF00FF#64 = 0x4#64 ∧ b.toNat = v.toNat / 2 ^ 8 % 2 ^ 8) ∧
    (∀ off len : Nat, decode v = .command (.compute off len) ↔
      v &&& 0xFFFFFFFF000000FF#64 = 0x5#64 ∧ off = v.toNat / 2 ^ 8 % 2 ^ 12 ∧ len = v.toNat / 2 ^ 20 % 2 ^ 12) ∧
    (decode v = .command .finalize ↔ v &&& 0xFFFFFFFFFFFFFFFF#64 = 0x6#64) ∧
    (∀ n : Nat, decode v = .command (.reflect n) ↔
      v &&& 0xFFFFFFFFFFFF80FF#64 = 0x7#64 ∧ n = v.toNat / 2 ^ 8 % 2 ^ 7)

/-- R97: every 64-bit value is selected by at most one row of the map. -/
def Obligations.OpcodeRowsDoNotOverlap : Prop :=
  ∀ v : Word, (opcodeMap.filter (fun row => row.selects v)).length ≤ 1

/-- R98: a value is illegal in exactly the three ways listed; issuing it raises IllegalCommand, which writes CAUSE and ILLS
and nothing else; the all-zero word is illegal. -/
def Obligations.IllegalCommandsReportOnly : Prop :=
  (∀ v : Word, (∃ why, decode v = .illegal why) ↔
    v.toNat / 2 ^ 32 ≠ 0 ∨ v.toNat % 16 = 0 ∨ 8 ≤ v.toNat % 16 ∨ v.toNat / 2 ^ 4 % 2 ^ 4 ≠ 0 ∨
      ((v.toNat % 16 = 1 ∨ v.toNat % 16 = 2 ∨ v.toNat % 16 = 3 ∨ v.toNat % 16 = 6) ∧ v.toNat / 2 ^ 8 % 2 ^ 24 ≠ 0) ∨
      (v.toNat % 16 = 4 ∧ v.toNat / 2 ^ 16 % 2 ^ 16 ≠ 0) ∨
      (v.toNat % 16 = 7 ∧ v.toNat / 2 ^ 15 % 2 ^ 17 ≠ 0)) ∧
  (∀ (v : Word) (why : Illegal) (s : State), decode v = .illegal why →
    dispatch v s = .next { s with status := { s.status with cause := .illegalCommand, ills := true } }) ∧
  (∃ why, decode 0#64 = .illegal why)

/-! ## The parameter checker -/

/-- R120: `valid(ctx)` is the conjunction of its seven clauses over WIDTH, POLY, MSB and MASK, read as numbers. -/
def Obligations.ValidityIsTheSevenClauses : Prop :=
  ∀ s : State, s.valid = true ↔ ConsistentParameters s.width.toNat s.poly s.msb s.mask

/-- R121: VALIDATE always completes, writes the predicate's value to VALID and 0 to CAUSE, and nothing else. -/
def Obligations.ValidateWritesTheVerdict : Prop :=
  ∀ s : State, exec .validate s = .next { s with status := { s.status with
    valid := decide (ConsistentParameters s.width.toNat s.poly s.msb s.mask), cause := .none } }

/-- R122: an invalid context makes GENTABLE, UPDATE, COMPUTE and FINALIZE raise InvalidParameters and write nothing but
STATUS; an invalid candidate makes INIT do so; VALIDATE and REFLECT never raise it. -/
def Obligations.InvalidContextStopsWidthDependentCommands : Prop :=
  ∀ s : State,
    (¬ ConsistentParameters s.width.toNat s.poly s.msb s.mask →
      ∀ i : Instr, (i = .gentable ∨ (∃ b, i = .update b) ∨ (∃ off len, i = .compute off len) ∨ i = .finalize) →
        exec i s = .next { s with status := { s.status with cause := .invalidParameters, errs := true } }) ∧
    (¬ ConsistentCandidate s.width.toNat s.poly →
      exec .init s = .next { s with status := { s.status with cause := .invalidParameters, errs := true } }) ∧
    (∃ t, exec .validate s = .next t ∧ t.status.cause = .none ∧ t.status.errs = s.status.errs) ∧
    (∀ n, ∃ t, exec (.reflect n) s = .next t ∧ t.status.cause = .none ∧ t.status.errs = s.status.errs)

/-! ## Initialization and table generation -/

/-- R130: INIT derives MSB and MASK from WIDTH, truncates INIT and FINAL, seeds CRC, builds the table in DYNAMIC, and sets
TBLV; where the candidate context is not valid it writes nothing but STATUS. -/
def Obligations.InitDerivesSeedsAndBuilds : Prop :=
  ∀ s : State,
    (ConsistentCandidate s.width.toNat s.poly →
      ∃ t, exec .init s = .next t ∧
        t.msb.toNat = 2 ^ (s.width.toNat - 1) ∧ t.mask.toNat = 2 ^ s.width.toNat - 1 ∧
        t.init = s.init &&& t.mask ∧ t.final = s.final &&& t.mask ∧ t.crc = s.init &&& t.mask ∧
        (s.build = .dynamic →
          ∀ k, k < 256 → Memory.read t.lut k = (genTable s.width.toNat s.poly)[k]?) ∧
        (s.build ≠ .dynamic → LutKept s t) ∧
        t.status = { s.status with tblv := true, cause := .none } ∧ t.rflOut = s.rflOut ∧ CommandKeeps s t) ∧
    (¬ ConsistentCandidate s.width.toNat s.poly →
      exec .init s = .next { s with status := { s.status with cause := .invalidParameters, errs := true } })

/-- R132: after a successful INIT the context is valid and TBLV = 1, and UPDATE, FINALIZE and a COMPUTE over written bytes
complete without a raise. -/
def Obligations.SuccessfulInitEnablesTheCommands : Prop :=
  ∀ s t : State, Inv s → exec .init s = .next t → t.status.cause = .none →
    t.valid = true ∧ t.status.tblv = true ∧
    (∀ b, ∃ u, exec (.update b) t = .next u ∧ u.status.cause = .none) ∧
    (∀ off len, BufferWritten t off len → ∃ u, exec (.compute off len) t = .next u ∧ u.status.cause = .none) ∧
    (∃ u, exec .finalize t = .next u ∧ u.status.cause = .none)

/-- R142: GENTABLE checks the stored context, builds the table in DYNAMIC and sets TBLV, and touches no other register; on
an invalid context it writes nothing but STATUS. -/
def Obligations.GentableBuildsOrRaises : Prop :=
  ∀ s : State,
    (s.valid = true →
      ∃ t, exec .gentable s = .next t ∧
        (s.build = .dynamic →
          ∀ k, k < 256 → Memory.read t.lut k = (genTable s.width.toNat s.poly)[k]?) ∧
        (s.build ≠ .dynamic → LutKept s t) ∧
        t.status = { s.status with tblv := true, cause := .none } ∧
        t.crc = s.crc ∧ ContextKept s t ∧ t.rflOut = s.rflOut ∧ CommandKeeps s t) ∧
    (s.valid = false →
      exec .gentable s = .next { s with status := { s.status with cause := .invalidParameters, errs := true } })

/-- R140: the table is built by bit-halving. There is a sequence of `crc` values that starts at `msb` and takes one
shift-and-reduce per pass, and pass `k`, with `i = 2^k`, sets `t[i XOR j]` to `crc XOR t[j]` for every `j < i`; `t[0] = 0`. -/
def Obligations.TableIsBuiltByBitHalving : Prop :=
  ∀ (w : Nat) (p : Word), 1 ≤ w → w ≤ 64 →
    (genTable w p).length = 256 ∧ (genTable w p)[0]? = some 0#64 ∧
    ∃ crc : Nat → Word, crc 0 = BitVec.ofNat 64 (2 ^ (w - 1)) ∧
      ∀ k, k < 8 →
        crc (k + 1) = ((if crc k &&& BitVec.ofNat 64 (2 ^ (w - 1)) ≠ 0#64 then (crc k <<< 1) ^^^ p else crc k <<< 1) &&&
          BitVec.ofNat 64 (2 ^ w - 1)) ∧
        ∀ j, j < 2 ^ k →
          (genTable w p)[2 ^ k ^^^ j]? = ((genTable w p)[j]?).map (fun e => crc (k + 1) ^^^ e)

/-- R141: every entry of the table is the bit-serial division of its byte, eight polynomial-division steps, where one step
shifts left, XORs the polynomial in when the bit at `w - 1` was set, and masks to `w` bits. -/
def Obligations.TableEqualsBitSerialDivision : Prop :=
  ∀ (w : Nat) (p : Word), ConsistentCandidate w p →
    (∀ r : Word, divStep r w p =
      ((r <<< 1) ^^^ (if r.getLsbD (w - 1) then p else 0#64)) &&& BitVec.ofNat 64 (2 ^ w - 1)) ∧
    ∀ b : Byte, (genTable w p)[b.toNat]? = some (divSteps 8 (b.setWidth 64 <<< (w - 8)) w p)

/-- R143: after a successful INIT or GENTABLE the LUT is the same for every two states that agree on WIDTH and POLY,
whatever else they hold and whichever of the two commands built it. -/
def Obligations.TableDependsOnWidthAndPolyOnly : Prop :=
  ∀ (s₁ s₂ t₁ t₂ : State) (i₁ i₂ : Instr), Inv s₁ → Inv s₂ → s₁.width = s₂.width → s₁.poly = s₂.poly →
    (i₁ = .init ∨ i₁ = .gentable) → (i₂ = .init ∨ i₂ = .gentable) →
    exec i₁ s₁ = .next t₁ → exec i₂ s₂ = .next t₂ → t₁.status.cause = .none → t₂.status.cause = .none →
    ∀ k, k < 256 → Memory.read t₁.lut k = Memory.read t₂.lut k ∧ (Memory.read t₁.lut k).isSome = true

/-- R144: the ROM of a STATIC build holds `gen_table(W_S, P_S)`, exactly what GENTABLE of a DYNAMIC engine writes for the
same WIDTH and POLY, every entry written. -/
def Obligations.RomHoldsWhatGentableWrites : Prop :=
  ∀ (w : BitVec 8) (p : Word) (base : Nat) (s t : State), legalBuild (.static w p) = true →
    s.build = .dynamic → s.width = w → s.poly = p → exec .gentable s = .next t → t.status.cause = .none →
    ∀ k, k < 256 → Memory.read (State.resetOf (.static w p) base).lut k = (genTable w.toNat p)[k]? ∧
      Memory.read (State.resetOf (.static w p) base).lut k = Memory.read t.lut k ∧
      (Memory.read t.lut k).isSome = true

/-- R36: an entry written by the generator has no bit set at or above position WIDTH. -/
def Obligations.TableEntriesFitTheWidth : Prop :=
  ∀ (w : Nat) (p : Word), ConsistentCandidate w p → ∀ (k : Nat) (e : Word), (genTable w p)[k]? = some e → e.toNat < 2 ^ w

/-! ## Bit reflection -/

/-- R150, R151: REFLECT always completes; bit `i` of RFL_OUT is bit `m-1-i` of RFL_IN for `i < m = min(N, SW)` and every
other bit is 0; CAUSE is 0 and nothing else is written. -/
def Obligations.ReflectReversesTheLowBits : Prop :=
  ∀ (s : State) (n : Nat), ∃ r : Word,
    exec (.reflect n) s = .next { s with rflOut := r, status := { s.status with cause := .none } } ∧
    ∀ i, i < 64 → r.getLsbD i = (decide (i < min n 64) && s.rflIn.getLsbD (min n 64 - 1 - i))

/-- R152: reflecting twice keeps the low `min(n, SW)` bits and clears the rest, so it gives back every value that fits. -/
def Obligations.ReflectionIsAnInvolution : Prop :=
  ∀ (v : Word) (n : Nat),
    (reflect (reflect v n) n).toNat = v.toNat % 2 ^ min n 64 ∧
    (1 ≤ n → n ≤ 64 → v.toNat < 2 ^ n → reflect (reflect v n) n = v)

/-- R153: reflection is the fixed full reversal followed by a logical right shift by `SW - min(n, SW)`. -/
def Obligations.ReflectionIsReversalAndShift : Prop :=
  ∀ (v r : Word) (n : Nat), (∀ i, i < 64 → r.getLsbD i = v.getLsbD (63 - i)) →
    reflect v n = r >>> (64 - min n 64)

/-! ## The LFSR update -/

/-- R160: with a valid context and TBLV = 1, UPDATE writes `((CRC << 8) AND MASK) XOR LUT[index]` to CRC and 0 to CAUSE and
nothing else, where the byte is reflected when REFIN is set and the index is the low byte of `d XOR (CRC >> (WIDTH - 8))`;
otherwise it writes nothing but STATUS. The fault of an UPDATE on an unwritten entry is the model's, not R160's (DEDUCED from
R197 and U4, log entry 5); no reached state meets it. -/
def Obligations.UpdateMixesOneByte : Prop :=
  ∀ (s : State) (b : Byte),
    (¬ (s.valid = true ∧ s.status.tblv = true) →
      exec (.update b) s = .next { s with status := { s.status with cause := .invalidParameters, errs := true } }) ∧
    (s.valid = true → s.status.tblv = true →
      ∀ d : Word, d = (if s.ctrl.getLsbD 0 then reflect (b.setWidth 64) 8 else b.setWidth 64) →
        (∀ e, Memory.read s.lut ((d ^^^ (s.crc >>> (s.width.toNat - 8))).toNat % 256) = some e →
          exec (.update b) s = .next { s with
            crc := ((s.crc <<< 8) &&& s.mask) ^^^ e, status := { s.status with cause := .none } }) ∧
        (Memory.read s.lut ((d ^^^ (s.crc >>> (s.width.toNat - 8))).toNat % 256) = none →
          exec (.update b) s = .fault .unwrittenLutEntry))

/-- R162: in every state of the invariant with a valid context and TBLV = 1, UPDATE equals eight bit-serial steps when
`CRC <= MASK`, equals the same UPDATE applied to `CRC AND MASK` for every CRC, and leaves `CRC <= MASK`. -/
def Obligations.UpdateEqualsBitSerialLfsr : Prop :=
  ∀ (s : State) (b : Byte), Inv s → s.valid = true → s.status.tblv = true →
    ∃ t, exec (.update b) s = .next t ∧
      exec (.update b) { s with crc := s.crc &&& s.mask } = .next t ∧
      t.crc.toNat ≤ s.mask.toNat ∧
      (s.crc.toNat ≤ s.mask.toNat →
        t.crc = divSteps 8 (s.crc ^^^
          ((if s.ctrl.getLsbD 0 then reflect (b.setWidth 64) 8 else b.setWidth 64) <<< (s.width.toNat - 8)))
          s.width.toNat s.poly)

/-- R180: COMPUTE checks once, then mixes the DBUF bytes at `(OFF + i) mod 4096` in order, and writes CRC and CAUSE only; on
an invalid context or TBLV = 0 it writes nothing but STATUS, LEN = 0 included; it faults where a byte it would read is
unwritten (the model's fault R180 asks for). -/
def Obligations.ComputeMixesTheBufferInOrder : Prop :=
  ∀ (s : State) (off len : Nat),
    (¬ (s.valid = true ∧ s.status.tblv = true) →
      exec (.compute off len) s =
        .next { s with status := { s.status with cause := .invalidParameters, errs := true } }) ∧
    (s.valid = true → s.status.tblv = true → LutWritten s →
      (∀ bytes : List Byte, bytes.length = len →
        (∀ i, i < len → Memory.read s.dbuf ((off + i) % 4096) = bytes[i]?) →
        exec (.compute off len) s = .next { s with
          crc := bytes.foldl (tableUpdate s) s.crc, status := { s.status with cause := .none } }) ∧
      ((∃ i, i < len ∧ Memory.read s.dbuf ((off + i) % 4096) = none) →
        exec (.compute off len) s = .fault .unwrittenDbufByte))

/-- R181: over at least one byte, COMPUTE leaves the same state as the UPDATEs of its bytes in order, whether the context is
valid or not; over no byte COMPUTE only checks, completing or raising once. That the completing one writes CAUSE = 0 is the
model's reading (R180's pseudocode and R32, where R181 read literally keeps CAUSE: DEDUCED, log entry 19). -/
def Obligations.ComputeEqualsUpdates : Prop :=
  ∀ (s : State) (off : Nat) (bytes : List Byte),
    (∀ i, i < bytes.length → Memory.read s.dbuf ((off + i) % 4096) = bytes[i]?) →
    (bytes ≠ [] → exec (.compute off bytes.length) s = execAll (bytes.map .update) s) ∧
    (s.valid = true → s.status.tblv = true →
      exec (.compute off 0) s = .next { s with status := { s.status with cause := .none } }) ∧
    (¬ (s.valid = true ∧ s.status.tblv = true) →
      exec (.compute off 0) s =
        .next { s with status := { s.status with cause := .invalidParameters, errs := true } })

/-- R180, corner case "Continues from the current CRC": two COMPUTEs over adjacent regions equal one over their union. -/
def Obligations.AdjacentComputesEqualOne : Prop :=
  ∀ (s t : State) (off m n : Nat), exec (.compute off m) s = .next t →
    exec (.compute ((off + m) % 4096) n) t = exec (.compute off (m + n)) s

/-! ## Finalization -/

/-- R170: with a valid context, FINALIZE writes `(CRC XOR FINAL) AND MASK`, reflected over WIDTH bits when REFOUT is set, to
CRC and 0 to CAUSE and nothing else, whatever TBLV is; otherwise it writes nothing but STATUS. -/
def Obligations.FinalizeXorsMasksAndReflects : Prop :=
  ∀ s : State,
    (s.valid = true → exec .finalize s = .next { s with
      crc := (if s.ctrl.getLsbD 1 then reflect ((s.crc ^^^ s.final) &&& s.mask) s.width.toNat
        else (s.crc ^^^ s.final) &&& s.mask),
      status := { s.status with cause := .none } }) ∧
    (s.valid = false →
      exec .finalize s = .next { s with status := { s.status with cause := .invalidParameters, errs := true } })

/-- R172 with R162: INIT, the UPDATEs of any byte sequence and one FINALIZE complete from every state of the invariant whose
WIDTH and POLY are consistent, and leave in CRC the bit-serial CRC of the bytes, a function of WIDTH, POLY, INIT, FINAL,
CTRL and the bytes alone. -/
def Obligations.EngineComputesTheBitSerialCrc : Prop :=
  ∀ (s : State) (bytes : List Byte), Inv s → ConsistentCandidate s.width.toNat s.poly →
    ∃ t, execAll (.init :: (bytes.map .update ++ [.finalize])) s = .next t ∧
      t.crc = serialCrc s.width.toNat s.poly s.init s.final (s.ctrl.getLsbD 0) (s.ctrl.getLsbD 1) bytes ∧
      t.status.cause = .none

/-! ## Frames and outcomes of the commands -/

/-- The frame of INIT and GENTABLE (R130, R142): neither writes RFL_OUT, VALID, ILLS or what no command writes; GENTABLE
keeps the context registers and CRC; one that raises keeps every register, LUT entry and TBLV. -/
def Obligations.SetupCommandsFrame : Prop :=
  ∀ (s t : State) (i : Instr), (i = .init ∨ i = .gentable) → exec i s = .next t →
    CommandKeeps s t ∧ t.rflOut = s.rflOut ∧ t.status.valid = s.status.valid ∧ t.status.ills = s.status.ills ∧
    (i = .gentable → ContextKept s t ∧ t.crc = s.crc) ∧
    (t.status.cause ≠ .none →
      ContextKept s t ∧ t.crc = s.crc ∧ LutKept s t ∧ t.status.tblv = s.status.tblv) ∧
    (t.status.cause = .none → t.status.errs = s.status.errs)

/-- The frame of UPDATE, COMPUTE and FINALIZE (R160, R170, R180): CRC, CAUSE and ERRS are all they write, and CRC is kept
where they raise. -/
def Obligations.LfsrCommandsFrame : Prop :=
  ∀ (s t : State) (i : Instr), ((∃ b, i = .update b) ∨ (∃ off len, i = .compute off len) ∨ i = .finalize) →
    exec i s = .next t →
    CommandKeeps s t ∧ ContextKept s t ∧ LutKept s t ∧ t.rflOut = s.rflOut ∧ t.status.valid = s.status.valid ∧
    t.status.tblv = s.status.tblv ∧ t.status.ills = s.status.ills ∧
    (t.status.cause = .none → t.status.errs = s.status.errs) ∧ (t.status.cause ≠ .none → t.crc = s.crc)

/-- The frame of VALIDATE and REFLECT (R121, R151): STATUS.CAUSE, with VALID or RFL_OUT, is all they write. -/
def Obligations.CheckerAndReflectFrame : Prop :=
  ∀ (s t : State) (i : Instr), (i = .validate ∨ ∃ n, i = .reflect n) → exec i s = .next t →
    CommandKeeps s t ∧ ContextKept s t ∧ LutKept s t ∧ t.crc = s.crc ∧ t.status.tblv = s.status.tblv ∧
    t.status.errs = s.status.errs ∧ t.status.ills = s.status.ills ∧
    (i = .validate → t.rflOut = s.rflOut) ∧ (i ≠ .validate → t.status.valid = s.status.valid)

/-- R32: every CMD write updates CAUSE in exactly one of three ways, and no other transaction changes CAUSE, VALID, ERRS or
ILLS, except that a write to STATUS may clear ERRS and ILLS. -/
def Obligations.EveryCommandSetsCauseInOneOfThreeWays : Prop :=
  (∀ (v : Word) (s t : State), dispatch v s = .next t →
    (t.status.cause = .none ∧ t.status.errs = s.status.errs ∧ t.status.ills = s.status.ills) ∨
    (t.status.cause = .invalidParameters ∧ t.status.errs = true ∧ t.status.ills = s.status.ills) ∨
    (t.status.cause = .illegalCommand ∧ t.status.errs = s.status.errs ∧ t.status.ills = true)) ∧
  (∀ (T : Transaction) (s t : State), (∀ v, T ≠ .wr .cmd v) → performTransaction T s = .next t →
    t.status.cause = s.status.cause ∧ t.status.valid = s.status.valid ∧
    ((∀ v, T ≠ .wr .status v) → t.status.errs = s.status.errs ∧ t.status.ills = s.status.ills))

/-- What a command can stop on, in every state of the invariant: no command is refused, and the only fault is a COMPUTE over
a byte nothing has written (R180, R197; the LUT is always written where it is read, R40). -/
def Obligations.CommandsStopOnlyOnUnwrittenBytes : Prop :=
  ∀ (s : State) (i : Instr), Inv s →
    (∀ r, exec i s ≠ .refused r) ∧
    (∀ f, exec i s = .fault f →
      f = .unwrittenDbufByte ∧ ∃ off len, i = .compute off len ∧ ¬ BufferWritten s off len)

/-- A failed INIT or GENTABLE always happens with TBLV = 0 (R40; 90_conflicts.md C8). -/
def Obligations.FailedBuildMeansNoCurrentTable : Prop :=
  ∀ (s t : State) (i : Instr), Inv s → (i = .init ∨ i = .gentable) → exec i s = .next t →
    t.status.cause = .invalidParameters → s.status.tblv = false ∧ t.status.tblv = false

/-! ## Steps and programs -/

/-- A step runs the decoded command (R33, R37, R195): when the next transaction is a 64-bit write of `v` to CMD and `v`
decodes to `i`, the step is `exec i` in the state with that transaction taken and the position advanced; an illegal `v`
raises IllegalCommand there; and `withFetchWord` places exactly such a write. -/
def Obligations.StepRunsTheDecodedCommand : Prop :=
  (∀ (s : State) (a : Access) (rest : List Access) (v : Word), legalBuild s.build = true →
    s.pending = a :: rest → a.addr = s.engineBase + 0x58 → a.op = .write64 v →
    (∀ i, decode v = .command i →
      step s = exec i { s with pending := rest, position := s.position + 1, response := .noValue }) ∧
    (∀ why, decode v = .illegal why →
      step s = .next { s with
        pending := rest, position := s.position + 1, response := .noValue,
        status := { s.status with cause := .illegalCommand, ills := true } })) ∧
  (∀ (s : State) (v : Word) (i : Instr), legalBuild s.build = true → decode v = .command i →
    step (s.withFetchWord 64 v.toNat) = exec i { s with position := s.position + 1, response := .noValue })

/-- R37: every step that answers next takes one transaction from the program and advances the position by 1; it changes
neither the build, the base address (log entry 3) nor the marks. That a step with an empty program leaves the engine as it
is, is the model's (DEDUCED from R224 and R197, log entry 2). -/
def Obligations.StepTakesOneTransaction : Prop :=
  ∀ s t : State, step s = .next t →
    t.build = s.build ∧ t.engineBase = s.engineBase ∧ t.faultMark = s.faultMark ∧ t.refusedMark = s.refusedMark ∧
    ((s.pending = [] ∧ t = s) ∨
      ∃ a rest, s.pending = a :: rest ∧ t.pending = rest ∧ t.position = s.position + 1)

/-- R70: a run over the whole program is the sequential composition of the rules of its transactions in arrival order. -/
def Obligations.RunIsSequentialComposition : Prop :=
  ∀ s : State, legalBuild s.build = true →
    Host.Core.run Sys2Proof.core s.pending.length s = performAll s.pending s

/-- R197, R250: from a state without a mark, a run of as many recorded steps as the program has transactions either records
a stop or has performed every transaction. That the position then stays short of the end, because a marked state makes no
further step, is the model's choice (DESIGN CHOICE, log entry 10). -/
def Obligations.ProgramIsPerformedOrStops : Prop :=
  ∀ s t : State, legalBuild s.build = true → NoStop s → t = runMarked s.pending.length s →
    (NoStop t ∧ t.pending = [] ∧ t.position = s.position + s.pending.length) ∨
    ((t.faultMark = true ∨ t.refusedMark = true) ∧ t.position < s.position + s.pending.length)

/-- R197: the fault and refused marks are never cleared, and a step that faults or is refused sets its mark. That setting it
changes nothing else and that a marked state makes no further step is the model's choice (DESIGN CHOICE, log entry 10). -/
def Obligations.MarksRecordTheFirstStop : Prop :=
  (∀ (n : Nat) (s : State), s.faultMark = true ∨ s.refusedMark = true → runMarked n s = s) ∧
  (∀ (s : State) (f : Fault), NoStop s → step s = .fault f → stepMarked s = { s with faultMark := true }) ∧
  (∀ (s : State) (r : Refusal), NoStop s → step s = .refused r → stepMarked s = { s with refusedMark := true }) ∧
  (∀ s t : State, NoStop s → step s = .next t → stepMarked s = t ∧ NoStop t)

/-- R222: instances share no state. A step of one leaves every other as it is, and steps of two commute. -/
def Obligations.InstancesShareNothing : Prop :=
  ∀ (engines : List State) (j k : Nat), j ≠ k →
    (stepInstance j engines)[k]? = engines[k]? ∧
    (stepInstance j engines)[j]? = (engines[j]?).map stepMarked ∧
    stepInstance k (stepInstance j engines) = stepInstance j (stepInstance k engines)

/-! ## Host transactions -/

/-- R20, R31, R190: a write to a writable register other than STATUS and CMD completes; the register then reads as the
written value on its implemented bits and 0 elsewhere; every other register reads as before; TBLV is cleared by the four
parameter registers and by no other; the memories and the program are kept. -/
def Obligations.RegisterWriteReadsBack : Prop :=
  ∀ (s : State) (r : Reg) (v : Word),
    ((isParameter r = true ∧ s.build = .dynamic) ∨ r ∈ [Reg.init, .final, .ctrl, .crc, .rflIn]) →
    ∃ t, performTransaction (.wr r v) s = .next t ∧
      registerValue t r = some (v &&& implementedBits r) ∧
      (∀ r', r' ≠ r → r' ≠ .status → registerValue t r' = registerValue s r') ∧
      t.status = (if isParameter r then { s.status with tblv := false } else s.status) ∧
      (∀ k, Memory.read t.lut k = Memory.read s.lut k) ∧ (∀ a, Memory.read t.dbuf a = Memory.read s.dbuf a) ∧
      t.build = s.build ∧ t.engineBase = s.engineBase ∧ t.pending = s.pending ∧ t.position = s.position ∧
      t.response = s.response ∧ t.faultMark = s.faultMark ∧ t.refusedMark = s.refusedMark

/-- R35: what the model refuses: writes to RFL_OUT and ID, writes and reads of the reserved numbers 13 to 15, and in STATIC
writes to the four parameter registers. -/
def Obligations.ReadOnlyAndReservedAccessesAreRefused : Prop :=
  ∀ (s : State) (v : Word),
    performTransaction (.wr .rflOut v) s = .refused .readOnlyRegister ∧
    performTransaction (.wr .id v) s = .refused .readOnlyRegister ∧
    (∀ n, 13 ≤ n → n ≤ 15 →
      performTransaction (.wr (Reg.ofNumber n) v) s = .refused .reservedRegister ∧
      performTransaction (.rd (Reg.ofNumber n)) s = .refused .reservedRegister) ∧
    (∀ w p, s.build = .static w p → ∀ r, isParameter r = true →
      performTransaction (.wr r v) s = .refused .readOnlyRegister)

/-- R31: a write of `v` to STATUS clears ERRS where bit 4 of `v` is set and ILLS where bit 5 is, and changes nothing else. -/
def Obligations.StatusWriteClearsStickyBits : Prop :=
  ∀ (s : State) (v : Word), ∃ t, performTransaction (.wr .status v) s = .next t ∧
    t.status.toWord = s.status.toWord &&& ~~~(v &&& 0x30#64) ∧ t = { s with status := t.status }

/-- R191: what `RD r` returns for every register number, changing nothing but the value returned; STATUS is assembled from
its fields. -/
def Obligations.RegisterReadsReturnTheRegisters : Prop :=
  ∀ s : State,
    performTransaction (.rd .width) s = .next { s with response := .word (s.width.setWidth 64) } ∧
    performTransaction (.rd .poly) s = .next { s with response := .word s.poly } ∧
    performTransaction (.rd .init) s = .next { s with response := .word s.init } ∧
    performTransaction (.rd .final) s = .next { s with response := .word s.final } ∧
    performTransaction (.rd .ctrl) s = .next { s with response := .word (s.ctrl.setWidth 64) } ∧
    performTransaction (.rd .mask) s = .next { s with response := .word s.mask } ∧
    performTransaction (.rd .msb) s = .next { s with response := .word s.msb } ∧
    performTransaction (.rd .crc) s = .next { s with response := .word s.crc } ∧
    performTransaction (.rd .rflIn) s = .next { s with response := .word s.rflIn } ∧
    performTransaction (.rd .rflOut) s = .next { s with response := .word s.rflOut } ∧
    performTransaction (.rd .cmd) s = .next { s with response := .word 0#64 } ∧
    (∃ st : Word, performTransaction (.rd .status) s = .next { s with response := .word st } ∧
      st.toNat = (match s.status.cause with | .none => 0 | .invalidParameters => 1 | .illegalCommand => 2) +
        4 * s.status.valid.toNat + 8 * s.status.tblv.toNat + 16 * s.status.errs.toNat + 32 * s.status.ills.toNat) ∧
    performTransaction (.rd .id) s = .next { s with response := .word (idWord s.build) }

/-- R34: the fields of ID, and its value for this hardware. -/
def Obligations.IdentityRegisterFields : Prop :=
  (∀ b : Build, (idWord b).toNat / 2 ^ 32 = 0x63726378 ∧ (idWord b).toNat / 2 ^ 24 % 2 ^ 8 = 0 ∧
    (idWord b).toNat / 2 ^ 16 % 2 ^ 8 = 1 ∧ (idWord b).toNat / 2 ^ 9 % 2 ^ 7 = 0 ∧
    (idWord b).getLsbD 8 = decide (b ≠ .dynamic) ∧ (idWord b).toNat % 2 ^ 8 = 64) ∧
  idWord State.reset.build = 0x6372637800010040#64

/-- R68: no read has a side effect (it changes only the value returned) and every read is idempotent. -/
def Obligations.ReadsHaveNoSideEffect : Prop :=
  ∀ (T : Transaction) (s t : State), isRead T = true → performTransaction T s = .next t →
    t = { s with response := t.response } ∧ performTransaction T t = .next t

/-- R192: LUTRD returns a written entry and changes nothing else; it faults on an unwritten one, and a write to the LUT
window is refused (the model's treatment R192 asks for). -/
def Obligations.LutReadsReturnWrittenEntries : Prop :=
  ∀ (s : State) (k : Nat),
    (∀ e, Memory.read s.lut k = some e → performTransaction (.lutrd k) s = .next { s with response := .word e }) ∧
    (Memory.read s.lut k = none → performTransaction (.lutrd k) s = .fault .unwrittenLutEntry) ∧
    (∀ v, performTransaction (.lutwr k v) s = .refused .lutWindowWrite)

/-- R64, R193: BWR8 stores one byte and BWR64 stores eight in little-endian lanes; every other byte reads as before, and
nothing but DBUF is written. -/
def Obligations.BufferWritesStoreTheirLanes : Prop :=
  ∀ (s : State) (a : Nat),
    (∀ b : Byte, ∃ t, performTransaction (.bwr8 a b) s = .next t ∧ t = { s with dbuf := t.dbuf } ∧
      ∀ k, Memory.read t.dbuf k = if k = a then some b else Memory.read s.dbuf k) ∧
    (∀ v : Word, ∃ t, performTransaction (.bwr64 a v) s = .next t ∧ t = { s with dbuf := t.dbuf } ∧
      ∀ k, Memory.read t.dbuf k =
        if a ≤ k ∧ k < a + 8 then some (BitVec.ofNat 8 (v.toNat / 2 ^ (8 * (k - a)))) else Memory.read s.dbuf k)

/-- R194: BRD8 returns the byte, and BRD64 the sum of `DBUF[a+i] << 8i` over `i` in 0..7; both change nothing else and fault
where a byte is unwritten. -/
def Obligations.BufferReadsAssembleTheirLanes : Prop :=
  ∀ (s : State) (a : Nat),
    (∀ b, Memory.read s.dbuf a = some b → performTransaction (.brd8 a) s = .next { s with response := .byte b }) ∧
    (Memory.read s.dbuf a = none → performTransaction (.brd8 a) s = .fault .unwrittenDbufByte) ∧
    (∀ b : Nat → Byte, (∀ i, i < 8 → Memory.read s.dbuf (a + i) = some (b i)) →
      ∀ v : Word, v.toNat = ((List.range 8).map (fun i => (b i).toNat * 2 ^ (8 * i))).sum →
        performTransaction (.brd64 a) s = .next { s with response := .word v }) ∧
    ((∃ i, i < 8 ∧ Memory.read s.dbuf (a + i) = none) →
      performTransaction (.brd64 a) s = .fault .unwrittenDbufByte)

/-- R62, R63: an access in the window gets BusError exactly when it is 16 or 32 bits wide, 8 bits wide in register or LUT
space, or 64 bits wide at an offset that is not a multiple of 8. That the iff holds at the reserved offsets
0x0080-0x07FF too, with no BusError for 8 bits there, is the model's reading (DEDUCED from R62, R63, R66 and R214, log
entry 9), and that BusError is the step's fault is log entry 6 (DEDUCED). -/
def Obligations.BusErrorExactlyOnBadWidthOrAlignment : Prop :=
  ∀ (s : State) (a : Access) (off : Nat), a.addr = s.engineBase + off → off < 0x2000 →
    (perform a s = .fault .busError ↔
      accessBytes a.op = 2 ∨ accessBytes a.op = 4 ∨
      (accessBytes a.op = 1 ∧ (off < 0x80 ∨ (0x800 ≤ off ∧ off < 0x1000))) ∨
      (accessBytes a.op = 8 ∧ off % 8 ≠ 0))

/-- R66, and the window's bounds: aligned 64-bit accesses to the reserved offsets are refused, and an address outside the
window is no access of the engine (log entry 7). -/
def Obligations.ReservedAndOutsideAccessesStop : Prop :=
  ∀ (s : State) (a : Access),
    (∀ off, a.addr = s.engineBase + off → 0x80 ≤ off → off < 0x800 → off % 8 = 0 → accessBytes a.op = 8 →
      perform a s = .refused .reservedOffset) ∧
    (a.addr < s.engineBase ∨ s.engineBase + 0x2000 ≤ a.addr → perform a s = .fault .outsideWindow)

/-- R61, R190 to R194: the bus access of every well-formed transaction lies in the window and decodes to it, at every base
address and for every host. -/
def Obligations.TransactionEncodingsDecode : Prop :=
  ∀ (base host off : Nat) (op : BusOp) (T : Transaction), T.wellFormed = true → T.encoding = some (off, op) →
    off < 0x2000 ∧ decodeAccess base { host := host, addr := base + off, op := op } = T

/-- R219: no transaction checks which host issued it. -/
def Obligations.HostIdentityIsNotChecked : Prop :=
  ∀ (a : Access) (h : Nat) (s : State), perform { a with host := h } s = perform a s

/-- R245: after a write to WIDTH, POLY, MASK or MSB, of any value, UPDATE and COMPUTE raise InvalidParameters and write
nothing but STATUS. -/
def Obligations.ParameterWriteDisablesUpdates : Prop :=
  ∀ (s t : State) (r : Reg) (v : Word), isParameter r = true → performTransaction (.wr r v) s = .next t →
    ∀ (i : Instr), ((∃ b, i = .update b) ∨ ∃ off len, i = .compute off len) →
      exec i t = .next { t with status := { t.status with cause := .invalidParameters, errs := true } }

/-! ## Reset -/

/-- R41: the value of every register, of STATUS and of both memories after reset, for both variants. -/
def Obligations.ResetValues : Prop :=
  (∀ base : Nat, ∀ s, s = State.resetOf .dynamic base →
    s.width = 0#8 ∧ s.poly = 0#64 ∧ s.init = 0#64 ∧ s.final = 0#64 ∧ s.ctrl = 0#2 ∧ s.mask = 0#64 ∧ s.msb = 0#64 ∧
    s.crc = 0#64 ∧ s.rflIn = 0#64 ∧ s.rflOut = 0#64 ∧ s.status = ⟨.none, false, false, false, false⟩ ∧
    registerValue s .id = some 0x6372637800010040#64 ∧
    (∀ k, Memory.read s.lut k = none) ∧ (∀ a, Memory.read s.dbuf a = none)) ∧
  (∀ (w : BitVec 8) (p : Word) (base : Nat), legalBuild (.static w p) = true → ∀ s, s = State.resetOf (.static w p) base →
    s.width = w ∧ s.poly = p ∧ s.init = 0#64 ∧ s.final = 0#64 ∧ s.ctrl = 0#2 ∧
    s.mask.toNat = 2 ^ w.toNat - 1 ∧ s.msb.toNat = 2 ^ (w.toNat - 1) ∧
    s.crc = 0#64 ∧ s.rflIn = 0#64 ∧ s.rflOut = 0#64 ∧ s.status = ⟨.none, false, true, false, false⟩ ∧
    registerValue s .id = some 0x6372637800010140#64 ∧
    (∀ k, k < 256 → Memory.read s.lut k = (genTable w.toNat p)[k]? ∧ (Memory.read s.lut k).isSome = true) ∧
    (∀ a, Memory.read s.dbuf a = none))

/-- R241: straight after a DYNAMIC reset every command that needs a context raises InvalidParameters, VALIDATE gives 0, and
REFLECT works. -/
def Obligations.DynamicResetHoldsNoContext : Prop :=
  ∀ (base : Nat) (s : State), s = State.resetOf .dynamic base →
    (∀ i, (i = .init ∨ i = .gentable ∨ (∃ b, i = .update b) ∨ (∃ off len, i = .compute off len) ∨ i = .finalize) →
      exec i s = .next { s with status := { s.status with cause := .invalidParameters, errs := true } }) ∧
    exec .validate s = .next s ∧
    (∀ n, exec (.reflect n) s = .next s)

/-- R244: straight after a STATIC reset UPDATE works and computes from a zero seed: CRC becomes the byte's table entry. -/
def Obligations.StaticResetIsReady : Prop :=
  ∀ (w : BitVec 8) (p : Word) (base : Nat) (b : Byte), legalBuild (.static w p) = true →
    ∃ t, exec (.update b) (State.resetOf (.static w p) base) = .next t ∧
      some t.crc = (genTable w.toNat p)[b.toNat]? ∧ t.status.cause = .none

/-! ## Invariants -/

/-- The invariant holds after reset of every legal build, at every base and with every program. -/
def Obligations.ResetMeetsTheInvariant : Prop :=
  ∀ (b : Build) (base : Nat) (p : List Access), legalBuild b = true → Inv { State.resetOf b base with pending := p }

/-- Every step keeps the invariant: the memories keep their canonical form, TBLV = 1 means a valid context and the table of
the current WIDTH and POLY (R40), and a STATIC build keeps its parameters, TBLV and ROM (R31, R36). -/
def Obligations.StepKeepsTheInvariant : Prop :=
  ∀ s t : State, Inv s → step s = .next t → Inv t

/-- R40: in every state reached from reset, if TBLV = 1 then the context is valid and `LUT[k] = gen_table(WIDTH, POLY)[k]`
for every `k`. -/
def Obligations.TableIsCurrentInEveryReachableState : Prop :=
  ∀ (b : Build) (base : Nat) (s : State), legalBuild b = true → Reachable b base s → s.status.tblv = true →
    s.valid = true ∧ ∀ k, k < 256 → Memory.read s.lut k = (genTable s.width.toNat s.poly)[k]?
end

