-- ==== Sys2Proof/Laws/Memory.lean ====
section
/-! SUPPORT. The laws of the two memories: a read after a write, and that every operation keeps the canonical form. -/

namespace Sys2Proof.Machine.Memory

section Cells

variable {α : Type}

@[simp] theorem read_nil (a : Nat) : read ([] : List (Nat × α)) a = none := rfl

theorem read_write_same (m : List (Nat × α)) (a : Nat) (x : α) : read (write m a x) a = some x := by
  induction m with
  | nil => simp [write, read]
  | cons c m ih =>
    obtain ⟨k, y⟩ := c
    by_cases h : a < k
    · simp [write, read, h]
    · by_cases h' : a = k
      · simp [write, read, h']
      · simp [write, read, h, h', Ne.symm h', ih]

theorem read_write_other {m : List (Nat × α)} {a b : Nat} (x : α) (h : b ≠ a) :
    read (write m a x) b = read m b := by
  induction m with
  | nil => simp [write, read, Ne.symm h]
  | cons c m ih =>
    obtain ⟨k, y⟩ := c
    by_cases h1 : a < k
    · simp [write, read, h1, Ne.symm h]
    · by_cases h2 : a = k
      · subst h2
        simp [write, read, Ne.symm h]
      · simp [write, read, h1, h2, ih]

theorem read_write (m : List (Nat × α)) (a b : Nat) (x : α) :
    read (write m a x) b = if b = a then some x else read m b := by
  split
  · next h => rw [h, read_write_same]
  · next h => exact read_write_other x h

/-- The two facts a cell of a canonical memory carries. -/
theorem wf_cons {size k : Nat} {y : α} {m : List (Nat × α)} :
    wf size ((k, y) :: m) = true ↔ k < size ∧ (∀ c ∈ m, k < c.1) ∧ wf size m = true := by
  simp [wf, and_assoc]

theorem fst_mem_write {m : List (Nat × α)} {a : Nat} {x : α} {c : Nat × α} (h : c ∈ write m a x) :
    c.1 = a ∨ ∃ d ∈ m, d.1 = c.1 := by
  induction m with
  | nil => simp_all [write]
  | cons d m ih =>
    obtain ⟨k, y⟩ := d
    by_cases h1 : a < k
    · simp only [write, h1, if_true, List.mem_cons] at h
      rcases h with rfl | rfl | h
      · exact .inl rfl
      · exact .inr ⟨(k, y), by simp, rfl⟩
      · exact .inr ⟨c, by simp [h], rfl⟩
    · by_cases h2 : a = k
      · subst h2
        simp only [write, h1, if_false, if_true, List.mem_cons] at h
        rcases h with rfl | h
        · exact .inl rfl
        · exact .inr ⟨c, by simp [h], rfl⟩
      · simp only [write, h1, h2, if_false, List.mem_cons] at h
        rcases h with rfl | h
        · exact .inr ⟨(k, y), by simp, rfl⟩
        · rcases ih h with h | ⟨d, hd, hdc⟩
          · exact .inl h
          · exact .inr ⟨d, by simp [hd], hdc⟩

/-- A write inside the memory keeps the canonical form. -/
theorem wf_write {size a : Nat} {m : List (Nat × α)} (x : α) (h : wf size m = true) (ha : a < size) :
    wf size (write m a x) = true := by
  induction m with
  | nil => simp [write, wf, ha]
  | cons c m ih =>
    obtain ⟨k, y⟩ := c
    obtain ⟨hk, hlt, hm⟩ := wf_cons.1 h
    by_cases h1 : a < k
    · simp only [write, h1, if_true]
      refine wf_cons.2 ⟨ha, ?_, h⟩
      intro c hc
      rcases List.mem_cons.1 hc with rfl | hc
      · exact h1
      · exact Nat.lt_trans h1 (hlt c hc)
    · by_cases h2 : a = k
      · subst h2
        simp only [write, h1, if_false, if_true]
        exact wf_cons.2 ⟨ha, hlt, hm⟩
      · simp only [write, h1, h2, if_false]
        refine wf_cons.2 ⟨hk, ?_, ih hm⟩
        intro c hc
        rcases fst_mem_write hc with h | ⟨d, hd, hdc⟩
        · omega
        · rw [← hdc]
          exact hlt d hd

theorem fst_mem_listedFrom {xs : List α} {k : Nat} {c : Nat × α} (h : c ∈ listedFrom k xs) :
    k ≤ c.1 ∧ c.1 < k + xs.length := by
  induction xs generalizing k with
  | nil => simp [listedFrom] at h
  | cons x xs ih =>
    simp only [listedFrom, List.mem_cons] at h
    rcases h with rfl | h
    · simp
    · have := ih h
      simp only [List.length_cons]
      omega

/-- A table written whole is canonical. -/
theorem wf_listedFrom {size k : Nat} {xs : List α} (h : k + xs.length ≤ size) :
    wf size (listedFrom k xs) = true := by
  induction xs generalizing k with
  | nil => rfl
  | cons x xs ih =>
    simp only [List.length_cons] at h
    refine wf_cons.2 ⟨by omega, ?_, ih (by omega)⟩
    intro c hc
    have := fst_mem_listedFrom hc
    omega

theorem read_listedFrom (xs : List α) (k a : Nat) (h : k ≤ a) :
    read (listedFrom k xs) a = xs[a - k]? := by
  induction xs generalizing k with
  | nil => simp [listedFrom]
  | cons x xs ih =>
    by_cases hk : k = a
    · simp [listedFrom, read, hk]
    · have h1 : a - k = (a - (k + 1)) + 1 := by omega
      simp only [listedFrom, read, hk, if_false]
      rw [ih (k + 1) (by omega), h1, List.getElem?_cons_succ]

/-- Entry `k` of a table written whole is its element `k` (R36). -/
@[simp] theorem read_ofTable (t : List α) (k : Nat) : read (ofTable t) k = t[k]? := by
  simp [ofTable, read_listedFrom]

theorem wf_ofTable {size : Nat} {t : List α} (h : t.length ≤ size) : wf size (ofTable t) = true :=
  wf_listedFrom (by omega)

/-- A number below every listed one is unwritten. -/
theorem read_eq_none_of_lt {m : List (Nat × α)} {a : Nat} (h : ∀ c ∈ m, a < c.1) : read m a = none := by
  induction m with
  | nil => rfl
  | cons c m ih =>
    obtain ⟨k, y⟩ := c
    have hk : k ≠ a := by
      have := h (k, y) (by simp)
      simp only at this
      omega
    simp only [read, hk, if_false]
    exact ih (fun c hc => h c (by simp [hc]))

/-- Two canonical memories that read alike everywhere are the same list. -/
theorem eq_of_read_eq {size : Nat} {m n : List (Nat × α)} (hm : wf size m = true) (hn : wf size n = true)
    (h : ∀ a, read m a = read n a) : m = n := by
  induction m generalizing n with
  | nil =>
    cases n with
    | nil => rfl
    | cons d n =>
      have := h d.1
      simp [read] at this
  | cons c m ih =>
    obtain ⟨k, y⟩ := c
    obtain ⟨-, hkm, hm'⟩ := wf_cons.1 hm
    cases n with
    | nil =>
      have := h k
      simp [read] at this
    | cons d n =>
      obtain ⟨l, z⟩ := d
      obtain ⟨-, hln, hn'⟩ := wf_cons.1 hn
      have hkl : k = l := by
        rcases Nat.lt_trichotomy k l with hlt | heq | hgt
        · have h1 := h k
          have h2 : read ((l, z) :: n) k = none := by
            refine read_eq_none_of_lt (fun c hc => ?_)
            rcases List.mem_cons.1 hc with rfl | hc
            · exact hlt
            · exact Nat.lt_trans hlt (hln c hc)
          rw [h2] at h1
          simp [read] at h1
        · exact heq
        · have h1 := h l
          have h2 : read ((k, y) :: m) l = none := by
            refine read_eq_none_of_lt (fun c hc => ?_)
            rcases List.mem_cons.1 hc with rfl | hc
            · exact hgt
            · exact Nat.lt_trans hgt (hkm c hc)
          rw [h2] at h1
          simp [read] at h1
      subst hkl
      have hyz : y = z := by simpa [read] using h k
      subst hyz
      rw [ih hm' hn' (fun a => ?_)]
      by_cases ha : k = a
      · subst ha
        rw [read_eq_none_of_lt hkm, read_eq_none_of_lt hln]
      · simpa [read, ha] using h a

end Cells

section Bytes

/-- A write of bytes inside the memory keeps the canonical form. -/
theorem wf_writeBytes {size : Nat} {m : List Host.Cell} {a : Nat} {bs : List Byte}
    (h : wf size m = true) (ha : a + bs.length ≤ size) : wf size (writeBytes m a bs) = true := by
  induction bs generalizing m a with
  | nil => exact h
  | cons b bs ih =>
    simp only [List.length_cons] at ha
    exact ih (wf_write b h (by omega)) (by omega)

theorem read_writeBytes (m : List Host.Cell) (a : Nat) (bs : List Byte) (k : Nat) :
    read (writeBytes m a bs) k = if a ≤ k ∧ k < a + bs.length then bs[k - a]? else read m k := by
  induction bs generalizing m a with
  | nil =>
    simp [writeBytes]
  | cons b bs ih =>
    simp only [writeBytes, ih, List.length_cons]
    by_cases h1 : a + 1 ≤ k ∧ k < a + 1 + bs.length
    · have h2 : a ≤ k ∧ k < a + (bs.length + 1) := by omega
      have h3 : k - a = (k - (a + 1)) + 1 := by omega
      rw [if_pos h1, if_pos h2, h3, List.getElem?_cons_succ]
    · rw [if_neg h1, read_write]
      by_cases h2 : k = a
      · subst h2
        simp
      · have h3 : ¬(a ≤ k ∧ k < a + (bs.length + 1)) := by omega
        rw [if_neg h2, if_neg h3]

@[simp] theorem length_lanes (v : Word) : (lanes v).length = 8 := rfl

/-- Lane `i` is `v[8i+7:8i]` (R64). -/
theorem lanes_getElem? (v : Word) {i : Nat} (h : i < 8) : (lanes v)[i]? = some (v.extractLsb' (8 * i) 8) := by
  simp [lanes, h]

/-- Every byte an 8-byte write leaves, stored or not (R64, R193). -/
theorem read_write64 (m : List Host.Cell) (a : Nat) (v : Word) (k : Nat) :
    read (write64 m a v) k = if a ≤ k ∧ k < a + 8 then some (v.extractLsb' (8 * (k - a)) 8) else read m k := by
  rw [write64, read_writeBytes, length_lanes]
  split
  · exact lanes_getElem? v (by omega)
  · rfl

theorem wf_write64 {size : Nat} {m : List Host.Cell} {a : Nat} (v : Word) (h : wf size m = true)
    (ha : a + 8 ≤ size) : wf size (write64 m a v) = true :=
  wf_writeBytes h (by simpa using ha)

/-- The byte list a read collects is the one the memory holds, byte by byte. -/
theorem readBytes_eq_some {m : List Host.Cell} {a n : Nat} {bs : List Byte} :
    readBytes m a n = some bs ↔ bs.length = n ∧ ∀ i, i < n → read m (a + i) = bs[i]? := by
  induction n generalizing a bs with
  | zero => cases bs <;> simp [readBytes]
  | succ n ih =>
    cases bs with
    | nil =>
      simp only [readBytes]
      cases read m a <;> cases readBytes m (a + 1) n <;> simp
    | cons b bs =>
      have hstep : readBytes m a (n + 1) = some (b :: bs) ↔
          read m a = some b ∧ readBytes m (a + 1) n = some bs := by
        simp only [readBytes]
        cases read m a <;> cases readBytes m (a + 1) n <;> simp
      rw [hstep, ih]
      simp only [List.length_cons, Nat.add_right_cancel_iff]
      constructor
      · rintro ⟨h0, hl, h⟩
        refine ⟨hl, ?_⟩
        rintro (_ | i) hi
        · simpa using h0
        · have := h i (by omega)
          rw [show a + (i + 1) = a + 1 + i by omega, this, List.getElem?_cons_succ]
      · rintro ⟨hl, h⟩
        refine ⟨by simpa using h 0 (by omega), hl, fun i hi => ?_⟩
        have := h (i + 1) (by omega)
        rwa [show a + (i + 1) = a + 1 + i by omega, List.getElem?_cons_succ] at this

end Bytes

end Sys2Proof.Machine.Memory
end

