-- ==== Sys2Proof/Laws/State.lean ====
section
/-! SUPPORT. One lemma per field per named update of the state, and of STATUS, so that no proof unfolds a record update. -/

namespace Sys2Proof.Machine

section RaiseFields

variable (e : CommandError) (s : State)

@[simp] theorem raise_build : (raise e s).build = s.build := rfl
@[simp] theorem raise_engineBase : (raise e s).engineBase = s.engineBase := rfl
@[simp] theorem raise_width : (raise e s).width = s.width := rfl
@[simp] theorem raise_poly : (raise e s).poly = s.poly := rfl
@[simp] theorem raise_init : (raise e s).init = s.init := rfl
@[simp] theorem raise_final : (raise e s).final = s.final := rfl
@[simp] theorem raise_ctrl : (raise e s).ctrl = s.ctrl := rfl
@[simp] theorem raise_mask : (raise e s).mask = s.mask := rfl
@[simp] theorem raise_msb : (raise e s).msb = s.msb := rfl
@[simp] theorem raise_crc : (raise e s).crc = s.crc := rfl
@[simp] theorem raise_rflIn : (raise e s).rflIn = s.rflIn := rfl
@[simp] theorem raise_rflOut : (raise e s).rflOut = s.rflOut := rfl
@[simp] theorem raise_status : (raise e s).status = s.status.raise e := rfl
@[simp] theorem raise_lut : (raise e s).lut = s.lut := rfl
@[simp] theorem raise_dbuf : (raise e s).dbuf = s.dbuf := rfl
@[simp] theorem raise_pending : (raise e s).pending = s.pending := rfl
@[simp] theorem raise_position : (raise e s).position = s.position := rfl
@[simp] theorem raise_response : (raise e s).response = s.response := rfl
@[simp] theorem raise_faultMark : (raise e s).faultMark = s.faultMark := rfl
@[simp] theorem raise_refusedMark : (raise e s).refusedMark = s.refusedMark := rfl

end RaiseFields

section CompleteFields

variable (s : State)

@[simp] theorem complete_build : (complete s).build = s.build := rfl
@[simp] theorem complete_engineBase : (complete s).engineBase = s.engineBase := rfl
@[simp] theorem complete_width : (complete s).width = s.width := rfl
@[simp] theorem complete_poly : (complete s).poly = s.poly := rfl
@[simp] theorem complete_init : (complete s).init = s.init := rfl
@[simp] theorem complete_final : (complete s).final = s.final := rfl
@[simp] theorem complete_ctrl : (complete s).ctrl = s.ctrl := rfl
@[simp] theorem complete_mask : (complete s).mask = s.mask := rfl
@[simp] theorem complete_msb : (complete s).msb = s.msb := rfl
@[simp] theorem complete_crc : (complete s).crc = s.crc := rfl
@[simp] theorem complete_rflIn : (complete s).rflIn = s.rflIn := rfl
@[simp] theorem complete_rflOut : (complete s).rflOut = s.rflOut := rfl
@[simp] theorem complete_status : (complete s).status = s.status.complete := rfl
@[simp] theorem complete_lut : (complete s).lut = s.lut := rfl
@[simp] theorem complete_dbuf : (complete s).dbuf = s.dbuf := rfl
@[simp] theorem complete_pending : (complete s).pending = s.pending := rfl
@[simp] theorem complete_position : (complete s).position = s.position := rfl
@[simp] theorem complete_response : (complete s).response = s.response := rfl
@[simp] theorem complete_faultMark : (complete s).faultMark = s.faultMark := rfl
@[simp] theorem complete_refusedMark : (complete s).refusedMark = s.refusedMark := rfl

end CompleteFields

section CleartblvFields

variable (s : State)

@[simp] theorem clearTblv_build : (clearTblv s).build = s.build := rfl
@[simp] theorem clearTblv_engineBase : (clearTblv s).engineBase = s.engineBase := rfl
@[simp] theorem clearTblv_width : (clearTblv s).width = s.width := rfl
@[simp] theorem clearTblv_poly : (clearTblv s).poly = s.poly := rfl
@[simp] theorem clearTblv_init : (clearTblv s).init = s.init := rfl
@[simp] theorem clearTblv_final : (clearTblv s).final = s.final := rfl
@[simp] theorem clearTblv_ctrl : (clearTblv s).ctrl = s.ctrl := rfl
@[simp] theorem clearTblv_mask : (clearTblv s).mask = s.mask := rfl
@[simp] theorem clearTblv_msb : (clearTblv s).msb = s.msb := rfl
@[simp] theorem clearTblv_crc : (clearTblv s).crc = s.crc := rfl
@[simp] theorem clearTblv_rflIn : (clearTblv s).rflIn = s.rflIn := rfl
@[simp] theorem clearTblv_rflOut : (clearTblv s).rflOut = s.rflOut := rfl
@[simp] theorem clearTblv_status : (clearTblv s).status = { s.status with tblv := false } := rfl
@[simp] theorem clearTblv_lut : (clearTblv s).lut = s.lut := rfl
@[simp] theorem clearTblv_dbuf : (clearTblv s).dbuf = s.dbuf := rfl
@[simp] theorem clearTblv_pending : (clearTblv s).pending = s.pending := rfl
@[simp] theorem clearTblv_position : (clearTblv s).position = s.position := rfl
@[simp] theorem clearTblv_response : (clearTblv s).response = s.response := rfl
@[simp] theorem clearTblv_faultMark : (clearTblv s).faultMark = s.faultMark := rfl
@[simp] theorem clearTblv_refusedMark : (clearTblv s).refusedMark = s.refusedMark := rfl

end CleartblvFields

section RespondFields

variable (r : Response) (s : State)

@[simp] theorem respond_build : (respond r s).build = s.build := rfl
@[simp] theorem respond_engineBase : (respond r s).engineBase = s.engineBase := rfl
@[simp] theorem respond_width : (respond r s).width = s.width := rfl
@[simp] theorem respond_poly : (respond r s).poly = s.poly := rfl
@[simp] theorem respond_init : (respond r s).init = s.init := rfl
@[simp] theorem respond_final : (respond r s).final = s.final := rfl
@[simp] theorem respond_ctrl : (respond r s).ctrl = s.ctrl := rfl
@[simp] theorem respond_mask : (respond r s).mask = s.mask := rfl
@[simp] theorem respond_msb : (respond r s).msb = s.msb := rfl
@[simp] theorem respond_crc : (respond r s).crc = s.crc := rfl
@[simp] theorem respond_rflIn : (respond r s).rflIn = s.rflIn := rfl
@[simp] theorem respond_rflOut : (respond r s).rflOut = s.rflOut := rfl
@[simp] theorem respond_status : (respond r s).status = s.status := rfl
@[simp] theorem respond_lut : (respond r s).lut = s.lut := rfl
@[simp] theorem respond_dbuf : (respond r s).dbuf = s.dbuf := rfl
@[simp] theorem respond_pending : (respond r s).pending = s.pending := rfl
@[simp] theorem respond_position : (respond r s).position = s.position := rfl
@[simp] theorem respond_response : (respond r s).response = r := rfl
@[simp] theorem respond_faultMark : (respond r s).faultMark = s.faultMark := rfl
@[simp] theorem respond_refusedMark : (respond r s).refusedMark = s.refusedMark := rfl

end RespondFields

section TaketransactionFields

variable (s : State) (rest : List Access)

@[simp] theorem takeTransaction_build : (s.takeTransaction rest).build = s.build := rfl
@[simp] theorem takeTransaction_engineBase : (s.takeTransaction rest).engineBase = s.engineBase := rfl
@[simp] theorem takeTransaction_width : (s.takeTransaction rest).width = s.width := rfl
@[simp] theorem takeTransaction_poly : (s.takeTransaction rest).poly = s.poly := rfl
@[simp] theorem takeTransaction_init : (s.takeTransaction rest).init = s.init := rfl
@[simp] theorem takeTransaction_final : (s.takeTransaction rest).final = s.final := rfl
@[simp] theorem takeTransaction_ctrl : (s.takeTransaction rest).ctrl = s.ctrl := rfl
@[simp] theorem takeTransaction_mask : (s.takeTransaction rest).mask = s.mask := rfl
@[simp] theorem takeTransaction_msb : (s.takeTransaction rest).msb = s.msb := rfl
@[simp] theorem takeTransaction_crc : (s.takeTransaction rest).crc = s.crc := rfl
@[simp] theorem takeTransaction_rflIn : (s.takeTransaction rest).rflIn = s.rflIn := rfl
@[simp] theorem takeTransaction_rflOut : (s.takeTransaction rest).rflOut = s.rflOut := rfl
@[simp] theorem takeTransaction_status : (s.takeTransaction rest).status = s.status := rfl
@[simp] theorem takeTransaction_lut : (s.takeTransaction rest).lut = s.lut := rfl
@[simp] theorem takeTransaction_dbuf : (s.takeTransaction rest).dbuf = s.dbuf := rfl
@[simp] theorem takeTransaction_pending : (s.takeTransaction rest).pending = rest := rfl
@[simp] theorem takeTransaction_position : (s.takeTransaction rest).position = s.position + 1 := rfl
@[simp] theorem takeTransaction_response : (s.takeTransaction rest).response = .noValue := rfl
@[simp] theorem takeTransaction_faultMark : (s.takeTransaction rest).faultMark = s.faultMark := rfl
@[simp] theorem takeTransaction_refusedMark : (s.takeTransaction rest).refusedMark = s.refusedMark := rfl

end TaketransactionFields

section BuildtableFields

variable (s : State)

@[simp] theorem buildTable_build : (buildTable s).build = s.build := rfl
@[simp] theorem buildTable_engineBase : (buildTable s).engineBase = s.engineBase := rfl
@[simp] theorem buildTable_width : (buildTable s).width = s.width := rfl
@[simp] theorem buildTable_poly : (buildTable s).poly = s.poly := rfl
@[simp] theorem buildTable_init : (buildTable s).init = s.init := rfl
@[simp] theorem buildTable_final : (buildTable s).final = s.final := rfl
@[simp] theorem buildTable_ctrl : (buildTable s).ctrl = s.ctrl := rfl
@[simp] theorem buildTable_mask : (buildTable s).mask = s.mask := rfl
@[simp] theorem buildTable_msb : (buildTable s).msb = s.msb := rfl
@[simp] theorem buildTable_crc : (buildTable s).crc = s.crc := rfl
@[simp] theorem buildTable_rflIn : (buildTable s).rflIn = s.rflIn := rfl
@[simp] theorem buildTable_rflOut : (buildTable s).rflOut = s.rflOut := rfl
@[simp] theorem buildTable_status : (buildTable s).status = { s.status with tblv := true } := rfl
@[simp] theorem buildTable_dbuf : (buildTable s).dbuf = s.dbuf := rfl
@[simp] theorem buildTable_pending : (buildTable s).pending = s.pending := rfl
@[simp] theorem buildTable_position : (buildTable s).position = s.position := rfl
@[simp] theorem buildTable_response : (buildTable s).response = s.response := rfl
@[simp] theorem buildTable_faultMark : (buildTable s).faultMark = s.faultMark := rfl
@[simp] theorem buildTable_refusedMark : (buildTable s).refusedMark = s.refusedMark := rfl

end BuildtableFields

section CommitcontextFields

variable (s : State)

@[simp] theorem commitContext_build : (commitContext s).build = s.build := rfl
@[simp] theorem commitContext_engineBase : (commitContext s).engineBase = s.engineBase := rfl
@[simp] theorem commitContext_width : (commitContext s).width = s.width := rfl
@[simp] theorem commitContext_poly : (commitContext s).poly = s.poly := rfl
@[simp] theorem commitContext_init : (commitContext s).init = s.init &&& deriveMask s.width.toNat := rfl
@[simp] theorem commitContext_final : (commitContext s).final = s.final &&& deriveMask s.width.toNat := rfl
@[simp] theorem commitContext_ctrl : (commitContext s).ctrl = s.ctrl := rfl
@[simp] theorem commitContext_mask : (commitContext s).mask = deriveMask s.width.toNat := rfl
@[simp] theorem commitContext_msb : (commitContext s).msb = deriveMsb s.width.toNat := rfl
@[simp] theorem commitContext_crc : (commitContext s).crc = s.init &&& deriveMask s.width.toNat := rfl
@[simp] theorem commitContext_rflIn : (commitContext s).rflIn = s.rflIn := rfl
@[simp] theorem commitContext_rflOut : (commitContext s).rflOut = s.rflOut := rfl
@[simp] theorem commitContext_status : (commitContext s).status = s.status := rfl
@[simp] theorem commitContext_lut : (commitContext s).lut = s.lut := rfl
@[simp] theorem commitContext_dbuf : (commitContext s).dbuf = s.dbuf := rfl
@[simp] theorem commitContext_pending : (commitContext s).pending = s.pending := rfl
@[simp] theorem commitContext_position : (commitContext s).position = s.position := rfl
@[simp] theorem commitContext_response : (commitContext s).response = s.response := rfl
@[simp] theorem commitContext_faultMark : (commitContext s).faultMark = s.faultMark := rfl
@[simp] theorem commitContext_refusedMark : (commitContext s).refusedMark = s.refusedMark := rfl

end CommitcontextFields

section WithfetchwordFields

variable (s : State) (nbits w : Nat)

@[simp] theorem withFetchWord_build : (s.withFetchWord nbits w).build = s.build := rfl
@[simp] theorem withFetchWord_engineBase : (s.withFetchWord nbits w).engineBase = s.engineBase := rfl
@[simp] theorem withFetchWord_width : (s.withFetchWord nbits w).width = s.width := rfl
@[simp] theorem withFetchWord_poly : (s.withFetchWord nbits w).poly = s.poly := rfl
@[simp] theorem withFetchWord_init : (s.withFetchWord nbits w).init = s.init := rfl
@[simp] theorem withFetchWord_final : (s.withFetchWord nbits w).final = s.final := rfl
@[simp] theorem withFetchWord_ctrl : (s.withFetchWord nbits w).ctrl = s.ctrl := rfl
@[simp] theorem withFetchWord_mask : (s.withFetchWord nbits w).mask = s.mask := rfl
@[simp] theorem withFetchWord_msb : (s.withFetchWord nbits w).msb = s.msb := rfl
@[simp] theorem withFetchWord_crc : (s.withFetchWord nbits w).crc = s.crc := rfl
@[simp] theorem withFetchWord_rflIn : (s.withFetchWord nbits w).rflIn = s.rflIn := rfl
@[simp] theorem withFetchWord_rflOut : (s.withFetchWord nbits w).rflOut = s.rflOut := rfl
@[simp] theorem withFetchWord_status : (s.withFetchWord nbits w).status = s.status := rfl
@[simp] theorem withFetchWord_lut : (s.withFetchWord nbits w).lut = s.lut := rfl
@[simp] theorem withFetchWord_dbuf : (s.withFetchWord nbits w).dbuf = s.dbuf := rfl
@[simp] theorem withFetchWord_pending : (s.withFetchWord nbits w).pending = commandAccess s.engineBase 0 (BitVec.ofNat 64 (w % 2 ^ nbits)) :: s.pending := rfl
@[simp] theorem withFetchWord_position : (s.withFetchWord nbits w).position = s.position := rfl
@[simp] theorem withFetchWord_response : (s.withFetchWord nbits w).response = s.response := rfl
@[simp] theorem withFetchWord_faultMark : (s.withFetchWord nbits w).faultMark = s.faultMark := rfl
@[simp] theorem withFetchWord_refusedMark : (s.withFetchWord nbits w).refusedMark = s.refusedMark := rfl

end WithfetchwordFields

section StatusCompleteFields

variable (st : Status)

@[simp] theorem statusComplete_cause : (st.complete).cause = .none := rfl
@[simp] theorem statusComplete_valid : (st.complete).valid = st.valid := rfl
@[simp] theorem statusComplete_tblv : (st.complete).tblv = st.tblv := rfl
@[simp] theorem statusComplete_errs : (st.complete).errs = st.errs := rfl
@[simp] theorem statusComplete_ills : (st.complete).ills = st.ills := rfl

end StatusCompleteFields

section StatusRaiseInvalidFields

variable (st : Status)

@[simp] theorem statusRaiseInvalid_cause : (st.raise .invalidParameters).cause = .invalidParameters := rfl
@[simp] theorem statusRaiseInvalid_valid : (st.raise .invalidParameters).valid = st.valid := rfl
@[simp] theorem statusRaiseInvalid_tblv : (st.raise .invalidParameters).tblv = st.tblv := rfl
@[simp] theorem statusRaiseInvalid_errs : (st.raise .invalidParameters).errs = true := rfl
@[simp] theorem statusRaiseInvalid_ills : (st.raise .invalidParameters).ills = st.ills := rfl

end StatusRaiseInvalidFields

section StatusRaiseIllegalFields

variable (st : Status)

@[simp] theorem statusRaiseIllegal_cause : (st.raise .illegalCommand).cause = .illegalCommand := rfl
@[simp] theorem statusRaiseIllegal_valid : (st.raise .illegalCommand).valid = st.valid := rfl
@[simp] theorem statusRaiseIllegal_tblv : (st.raise .illegalCommand).tblv = st.tblv := rfl
@[simp] theorem statusRaiseIllegal_errs : (st.raise .illegalCommand).errs = st.errs := rfl
@[simp] theorem statusRaiseIllegal_ills : (st.raise .illegalCommand).ills = true := rfl

end StatusRaiseIllegalFields

section StatusWriteOneToClearFields

variable (v : Word) (st : Status)

@[simp] theorem statusWriteOneToClear_cause : (st.writeOneToClear v).cause = st.cause := rfl
@[simp] theorem statusWriteOneToClear_valid : (st.writeOneToClear v).valid = st.valid := rfl
@[simp] theorem statusWriteOneToClear_tblv : (st.writeOneToClear v).tblv = st.tblv := rfl
@[simp] theorem statusWriteOneToClear_errs : (st.writeOneToClear v).errs = (st.errs && !v.getLsbD 4) := rfl
@[simp] theorem statusWriteOneToClear_ills : (st.writeOneToClear v).ills = (st.ills && !v.getLsbD 5) := rfl

end StatusWriteOneToClearFields

/-- The LUT a table build leaves in `DYNAMIC` (R130, R142). -/
theorem buildTable_lut_dynamic {s : State} (h : s.build = .dynamic) :
    (buildTable s).lut = Memory.ofTable (genTable s.width.toNat s.poly) := by
  simp [buildTable, h]

/-- The ROM of a `STATIC` build is not written (R130, R142). -/
theorem buildTable_lut_static {s : State} {w : BitVec 8} {p : Word} (h : s.build = .static w p) :
    (buildTable s).lut = s.lut := by
  simp [buildTable, h]

/-- Raising twice is raising once. -/
@[simp] theorem raise_raise (e : CommandError) (s : State) : raise e (raise e s) = raise e s := by
  cases e <;> rfl

/-- Completing twice is completing once. -/
@[simp] theorem complete_complete (s : State) : complete (complete s) = complete s := rfl

@[simp] theorem valid_raise (e : CommandError) (s : State) : (raise e s).valid = s.valid := rfl
@[simp] theorem valid_complete (s : State) : (complete s).valid = s.valid := rfl
@[simp] theorem valid_clearTblv (s : State) : (clearTblv s).valid = s.valid := rfl
@[simp] theorem valid_buildTable (s : State) : (buildTable s).valid = s.valid := rfl
@[simp] theorem valid_respond (r : Response) (s : State) : (respond r s).valid = s.valid := rfl
@[simp] theorem valid_takeTransaction (s : State) (rest : List Access) :
    (s.takeTransaction rest).valid = s.valid := rfl

/-- The context an INIT commits passes the predicate exactly when the candidate does (R130, R132). -/
@[simp] theorem valid_commitContext (s : State) : (commitContext s).valid = validCandidate s.width s.poly := rfl

@[simp] theorem ready_complete (s : State) : (complete s).ready = s.ready := rfl

@[simp] theorem ready_raise (e : CommandError) (s : State) : (raise e s).ready = s.ready := by
  cases e <;> rfl

end Sys2Proof.Machine
end

