-- ==== Sys2Proof/Laws/Ops.lean ====
section
/-! SUPPORT. For each shared operation and each meaning, one lemma that says everything it can do; proofs cite these
instead of unfolding the definitions. -/

namespace Sys2Proof.Machine

section Checker

/-- The clauses of the predicate, read off (R120). -/
theorem validParams_eq_true {width : BitVec 8} {poly msb mask : Word} :
    validParams width poly msb mask = true ↔
      poly ≠ 0#64 ∧ legalWidth width = true ∧ msb = deriveMsb width.toNat ∧ mask = deriveMask width.toNat ∧
        polyFits width poly = true := by
  simp [validParams, and_assoc]

theorem legalWidth_eq_true {width : BitVec 8} :
    legalWidth width = true ↔ width.toNat ≠ 0 ∧ width.toNat % 8 = 0 ∧ width.toNat ≤ 64 := by
  simp [legalWidth, and_assoc]

theorem validCandidate_eq_true {width : BitVec 8} {poly : Word} :
    validCandidate width poly = true ↔ poly ≠ 0#64 ∧ legalWidth width = true ∧ polyFits width poly = true := by
  simp [validCandidate, validParams_eq_true]

/-- `derive_msb(w)` as a number, on its domain (R16). -/
theorem toNat_deriveMsb {w : Nat} (h : w ≤ 64) : (deriveMsb w).toNat = 2 ^ (w - 1) := by
  have hlt : 2 ^ (w - 1) < 2 ^ 64 := Nat.pow_lt_pow_right (by decide) (by omega)
  simpa [deriveMsb, Nat.shiftLeft_eq] using hlt

/-- `derive_mask(w)` as a number, on its domain (R16). -/
theorem toNat_deriveMask {w : Nat} (h : w ≤ 64) : (deriveMask w).toNat = 2 ^ w - 1 := by
  unfold deriveMask storageWidth
  split
  · next h => subst h; decide
  · have hlt : 2 ^ w < 2 ^ 64 := Nat.pow_lt_pow_right (by decide) (by omega)
    have hpos : 1 ≤ 2 ^ w := Nat.one_le_two_pow
    simp only [BitVec.toNat_sub, BitVec.toNat_shiftLeft, BitVec.toNat_ofNat, Nat.shiftLeft_eq]
    rw [show 1 % 2 ^ 64 * 2 ^ w = 2 ^ w by simp, Nat.mod_eq_of_lt hlt]
    omega

/-- The last clause of R120 as a bound. -/
theorem polyFits_eq_true {width : BitVec 8} {poly : Word} :
    polyFits width poly = true ↔ poly.toNat < 2 ^ width.toNat := by
  simp only [polyFits, Bool.or_eq_true, decide_eq_true_eq]
  constructor
  · rintro (hw | hz)
    · rw [hw]
      exact poly.isLt
    · have hz' := congrArg BitVec.toNat hz
      simpa [Nat.shiftRight_eq_div_pow] using hz'
  · intro hlt
    refine .inr (BitVec.eq_of_toNat_eq ?_)
    simp [Nat.shiftRight_eq_div_pow, Nat.div_eq_of_lt hlt]

/-- The candidate check is the clauses of R120 on WIDTH and POLY, read as numbers. -/
theorem validCandidate_iff_consistent (width : BitVec 8) (poly : Word) :
    validCandidate width poly = true ↔ ConsistentCandidate width.toNat poly := by
  rw [validCandidate_eq_true, legalWidth_eq_true]
  constructor
  · rintro ⟨hp, ⟨h0, h8, h64⟩, hf⟩
    exact ⟨hp, h0, h8, h64, (polyFits_eq_true).1 hf⟩
  · rintro ⟨hp, h0, h8, h64, hf⟩
    exact ⟨hp, ⟨h0, h8, h64⟩, (polyFits_eq_true).2 hf⟩

/-- A valid context is a valid candidate with the derived constants stored (R120, R130). -/
theorem valid_iff (s : State) :
    s.valid = true ↔ validCandidate s.width s.poly = true ∧ s.msb = deriveMsb s.width.toNat ∧
      s.mask = deriveMask s.width.toNat := by
  rw [State.valid, validParams_eq_true, validCandidate_eq_true]
  tauto

theorem ready_iff (s : State) : s.ready = true ↔ s.valid = true ∧ s.status.tblv = true := by
  simp [State.ready]

end Checker

section Generator

@[simp] theorem divSteps_zero (r : Word) (w : Nat) (p : Word) : divSteps 0 r w p = r := rfl

theorem divSteps_succ (n : Nat) (r : Word) (w : Nat) (p : Word) :
    divSteps (n + 1) r w p = divSteps n (divStep r w p) w p := rfl

/-- The last of `n + 1` steps, taken off the end. -/
theorem divSteps_succ' (n : Nat) (r : Word) (w : Nat) (p : Word) :
    divSteps (n + 1) r w p = divStep (divSteps n r w p) w p := by
  induction n generalizing r with
  | zero => rfl
  | succ n ih => rw [divSteps_succ, ih, divSteps_succ]

theorem length_tablePasses (w : Nat) (p : Word) (n : Nat) (crc : Word) (t : List Word) :
    (tablePasses w p n crc t).length = 2 ^ n * t.length := by
  induction n generalizing crc t with
  | zero => simp [tablePasses]
  | succ n ih =>
    simp only [tablePasses, ih, List.length_append, List.length_map, Nat.pow_succ]
    ring

/-- The table has 256 entries (R8, R140). -/
@[simp] theorem length_genTable (w : Nat) (p : Word) : (genTable w p).length = 256 := by
  simp [genTable, length_tablePasses]

/-- After a table build every LUT entry is written (R36). -/
theorem isSome_genTable (w : Nat) (p : Word) {k : Nat} (h : k < 256) : ((genTable w p)[k]?).isSome = true := by
  simp [h]

theorem wf_ofTable_genTable (w : Nat) (p : Word) :
    Memory.wf tableEntries (Memory.ofTable (genTable w p)) = true :=
  Memory.wf_ofTable (by simp)

end Generator

section Lfsr

/-- The index a byte selects is always one of the 256 (R160 step 3; 92_eei_decisions.md D16). -/
theorem lutIndex_lt (w : Nat) (crc d : Word) : lutIndex w crc d < 256 := by
  unfold lutIndex
  exact BitVec.isLt _

/-- Everything one byte can do: write CRC alone, or stop on an unwritten entry (R160). -/
theorem absorb_cases (b : Byte) (s : State) :
    (∃ e, Memory.read s.lut (s.lutIndexOf b) = some e ∧
      absorb b s = .ok { s with crc := mixEntry s.crc s.mask e }) ∨
    (Memory.read s.lut (s.lutIndexOf b) = none ∧ absorb b s = .error .unwrittenLutEntry) := by
  unfold absorb
  cases h : Memory.read s.lut (s.lutIndexOf b) with
  | none => exact .inr ⟨rfl, rfl⟩
  | some e => exact .inl ⟨e, rfl, rfl⟩

theorem absorb_ok {b : Byte} {s t : State} (h : absorb b s = .ok t) : ∃ c, t = { s with crc := c } := by
  rcases absorb_cases b s with ⟨e, -, h'⟩ | ⟨-, h'⟩
  · rw [h'] at h
    cases h
    exact ⟨_, rfl⟩
  · rw [h'] at h
    cases h

/-- A run of bytes writes CRC alone (R180). -/
theorem absorbFrom_ok {as : List Nat} {s t : State} (h : absorbFrom as s = .ok t) : ∃ c, t = { s with crc := c } := by
  induction as generalizing s with
  | nil =>
    obtain rfl : s = t := by simpa [absorbFrom] using h
    exact ⟨s.crc, rfl⟩
  | cons a as ih =>
    simp only [absorbFrom] at h
    split at h
    · cases h
    · split at h
      · next u hu =>
        obtain ⟨c, rfl⟩ := absorb_ok hu
        obtain ⟨c', rfl⟩ := ih h
        exact ⟨c', rfl⟩
      · cases h

/-- A run of bytes stops only on an unwritten cell (R197). -/
theorem absorbFrom_error {as : List Nat} {s : State} {f : Fault} (h : absorbFrom as s = .error f) :
    f = .unwrittenLutEntry ∨ (f = .unwrittenDbufByte ∧ ∃ a ∈ as, Memory.read s.dbuf a = none) := by
  induction as generalizing s with
  | nil => cases h
  | cons a as ih =>
    simp only [absorbFrom] at h
    split at h
    · next hn =>
      cases h
      exact .inr ⟨rfl, a, by simp, hn⟩
    · next b hb =>
      split at h
      · next u hu =>
        obtain ⟨c, rfl⟩ := absorb_ok hu
        rcases ih h with h' | ⟨h', a', ha', hr⟩
        · exact .inl h'
        · exact .inr ⟨h', a', by simp [ha'], hr⟩
      · next g hg =>
        cases h
        rcases absorb_cases b s with ⟨e, -, h'⟩ | ⟨-, h'⟩
        · rw [h'] at hg
          cases hg
        · rw [h'] at hg
          cases hg
          exact .inl rfl

/-- The loop over two address lists is the loop over the first, then over the second. -/
theorem absorbFrom_append (as bs : List Nat) (s : State) :
    absorbFrom (as ++ bs) s =
      match absorbFrom as s with
      | .ok t => absorbFrom bs t
      | .error f => .error f := by
  induction as generalizing s with
  | nil => rfl
  | cons a as ih =>
    simp only [List.cons_append, absorbFrom]
    cases Memory.read s.dbuf a with
    | none => rfl
    | some b =>
      dsimp only
      cases absorb b s with
      | error f => rfl
      | ok t => exact ih t

theorem completeOr_next {r : Except Fault State} {t : State} (h : completeOr r = .next t) :
    ∃ u, r = .ok u ∧ t = complete u := by
  cases r with
  | ok u =>
    cases h
    exact ⟨u, rfl, rfl⟩
  | error f => cases h

theorem completeOr_fault {r : Except Fault State} {f : Fault} (h : completeOr r = .fault f) : r = .error f := by
  cases r with
  | ok u => cases h
  | error g =>
    cases h
    rfl

end Lfsr

section Commands

variable {s t : State}

theorem execValidate_next (h : execValidate s = .next t) :
    t = complete { s with status := { s.status with valid := s.valid } } := by
  cases h
  rfl

/-- Everything INIT can do (R130). -/
theorem execInit_cases (s : State) :
    (validCandidate s.width s.poly = false ∧ execInit s = .next (raise .invalidParameters s)) ∨
    (validCandidate s.width s.poly = true ∧ execInit s = .next (complete (buildTable (commitContext s)))) := by
  unfold execInit
  by_cases hw : legalWidth s.width = false
  · refine .inl ⟨?_, by simp [hw]⟩
    by_contra hc
    have := (validCandidate_eq_true.1 (by simpa using hc)).2.1
    simp [hw] at this
  · by_cases hc : validCandidate s.width s.poly = false
    · exact .inl ⟨hc, by simp [hc]⟩
    · exact .inr ⟨by simpa using hc, by simp [hw, hc]⟩

/-- Everything GENTABLE can do (R142). -/
theorem execGentable_cases (s : State) :
    (s.valid = false ∧ execGentable s = .next (raise .invalidParameters s)) ∨
    (s.valid = true ∧ execGentable s = .next (complete (buildTable s))) := by
  unfold execGentable
  cases h : s.valid <;> simp

/-- Everything UPDATE can do (R160). -/
theorem execUpdate_cases (b : Byte) (s : State) :
    (s.ready = false ∧ execUpdate b s = .next (raise .invalidParameters s)) ∨
    (s.ready = true ∧ ∃ e, Memory.read s.lut (s.lutIndexOf b) = some e ∧
      execUpdate b s = .next (complete { s with crc := mixEntry s.crc s.mask e })) ∨
    (s.ready = true ∧ Memory.read s.lut (s.lutIndexOf b) = none ∧
      execUpdate b s = .fault .unwrittenLutEntry) := by
  unfold execUpdate
  cases h : s.ready with
  | false => simp
  | true =>
    rcases absorb_cases b s with ⟨e, he, h'⟩ | ⟨hn, h'⟩
    · exact .inr (.inl ⟨rfl, e, he, by simp [h', completeOr]⟩)
    · exact .inr (.inr ⟨rfl, hn, by simp [h', completeOr]⟩)

/-- Everything COMPUTE can do (R180). -/
theorem execCompute_cases (off len : Nat) (s : State) :
    (s.ready = false ∧ execCompute off len s = .next (raise .invalidParameters s)) ∨
    (s.ready = true ∧ ∃ c, absorbFrom (dbufAddresses off len) s = .ok { s with crc := c } ∧
      execCompute off len s = .next (complete { s with crc := c })) ∨
    (s.ready = true ∧ ∃ f, absorbFrom (dbufAddresses off len) s = .error f ∧
      execCompute off len s = .fault f) := by
  unfold execCompute
  cases h : s.ready with
  | false => simp
  | true =>
    cases h' : absorbFrom (dbufAddresses off len) s with
    | ok t =>
      obtain ⟨c, rfl⟩ := absorbFrom_ok h'
      exact .inr (.inl ⟨rfl, c, rfl, by simp [completeOr]⟩)
    | error f => exact .inr (.inr ⟨rfl, f, rfl, by simp [completeOr]⟩)

/-- Everything FINALIZE can do (R170). -/
theorem execFinalize_cases (s : State) :
    (s.valid = false ∧ execFinalize s = .next (raise .invalidParameters s)) ∨
    (s.valid = true ∧ execFinalize s =
      .next (complete { s with crc := finalValue s.refout s.width.toNat s.crc s.final s.mask })) := by
  unfold execFinalize
  cases h : s.valid <;> simp

theorem execReflect_next {n : Nat} (h : execReflect n s = .next t) :
    t = complete { s with rflOut := reflect s.rflIn n } := by
  cases h
  rfl

/-- Everything a command that answers next can have done: raised, or completed with exactly the writes its rule lists. -/
theorem exec_next {i : Instr} (h : exec i s = .next t) :
    (i ≠ .validate ∧ (∀ n, i ≠ .reflect n) ∧ t = raise .invalidParameters s) ∨
    (i = .validate ∧ t = complete { s with status := { s.status with valid := s.valid } }) ∨
    (i = .init ∧ validCandidate s.width s.poly = true ∧ t = complete (buildTable (commitContext s))) ∨
    (i = .gentable ∧ s.valid = true ∧ t = complete (buildTable s)) ∨
    (((∃ b, i = .update b) ∨ (∃ off len, i = .compute off len)) ∧ s.ready = true ∧
      ∃ c, t = complete { s with crc := c }) ∨
    (i = .finalize ∧ s.valid = true ∧
      t = complete { s with crc := finalValue s.refout s.width.toNat s.crc s.final s.mask }) ∨
    (∃ n, i = .reflect n ∧ t = complete { s with rflOut := reflect s.rflIn n }) := by
  cases i with
  | validate => exact .inr (.inl ⟨rfl, execValidate_next h⟩)
  | init =>
    rcases execInit_cases s with ⟨-, h'⟩ | ⟨hc, h'⟩
    · exact .inl ⟨by simp, by simp, by simpa [exec, h'] using h.symm⟩
    · exact .inr (.inr (.inl ⟨rfl, hc, by simpa [exec, h'] using h.symm⟩))
  | gentable =>
    rcases execGentable_cases s with ⟨-, h'⟩ | ⟨hc, h'⟩
    · exact .inl ⟨by simp, by simp, by simpa [exec, h'] using h.symm⟩
    · exact .inr (.inr (.inr (.inl ⟨rfl, hc, by simpa [exec, h'] using h.symm⟩)))
  | update b =>
    rcases execUpdate_cases b s with ⟨-, h'⟩ | ⟨hc, e, -, h'⟩ | ⟨-, -, h'⟩
    · exact .inl ⟨by simp, by simp, by simpa [exec, h'] using h.symm⟩
    · exact .inr (.inr (.inr (.inr (.inl ⟨.inl ⟨b, rfl⟩, hc, _, by simpa [exec, h'] using h.symm⟩))))
    · simp [exec, h'] at h
  | compute off len =>
    rcases execCompute_cases off len s with ⟨-, h'⟩ | ⟨hc, c, -, h'⟩ | ⟨-, f, -, h'⟩
    · exact .inl ⟨by simp, by simp, by simpa [exec, h'] using h.symm⟩
    · exact .inr (.inr (.inr (.inr (.inl ⟨.inr ⟨off, len, rfl⟩, hc, c, by simpa [exec, h'] using h.symm⟩))))
    · simp [exec, h'] at h
  | finalize =>
    rcases execFinalize_cases s with ⟨-, h'⟩ | ⟨hc, h'⟩
    · exact .inl ⟨by simp, by simp, by simpa [exec, h'] using h.symm⟩
    · exact .inr (.inr (.inr (.inr (.inr (.inl ⟨rfl, hc, by simpa [exec, h'] using h.symm⟩)))))
  | reflect n => exact .inr (.inr (.inr (.inr (.inr (.inr ⟨n, rfl, execReflect_next h⟩)))))

end Commands

section Transactions

variable {s t : State}

/-- A parameter write answers next only in `DYNAMIC` (R35, R190). -/
theorem storeParameter_next (h : storeParameter s = .next t) : s.build = .dynamic ∧ t = clearTblv s := by
  unfold storeParameter at h
  split at h
  · next hb => exact ⟨hb, by simpa using h.symm⟩
  · cases h

/-- A memory read answers next only with the content it found (R192, R194). -/
theorem respondOr_next {f : Fault} {r : Option Response} (h : respondOr f r s = .next t) :
    ∃ v, r = some v ∧ t = respond v s := by
  cases r with
  | none => cases h
  | some v =>
    cases h
    exact ⟨v, rfl, rfl⟩

theorem dispatch_next {v : Word} (h : dispatch v s = .next t) :
    ((∃ why, decode v = .illegal why) ∧ t = raise .illegalCommand s) ∨
    ∃ i, decode v = .command i ∧ exec i s = .next t := by
  unfold dispatch at h
  cases hd : decode v with
  | illegal why =>
    rw [hd] at h
    exact .inl ⟨⟨why, rfl⟩, by simpa using h.symm⟩
  | command i =>
    rw [hd] at h
    exact .inr ⟨i, rfl, h⟩

/-- Everything a register write that answers next can have done (R190). -/
theorem writeRegister_next {r : Reg} {v : Word} (h : writeRegister r v s = .next t) :
    (r = .width ∧ s.build = .dynamic ∧ t = clearTblv { s with width := v.setWidth 8 }) ∨
    (r = .poly ∧ s.build = .dynamic ∧ t = clearTblv { s with poly := v }) ∨
    (r = .mask ∧ s.build = .dynamic ∧ t = clearTblv { s with mask := v }) ∨
    (r = .msb ∧ s.build = .dynamic ∧ t = clearTblv { s with msb := v }) ∨
    (r = .init ∧ t = { s with init := v }) ∨ (r = .final ∧ t = { s with final := v }) ∨
    (r = .ctrl ∧ t = { s with ctrl := v.setWidth 2 }) ∨ (r = .crc ∧ t = { s with crc := v }) ∨
    (r = .rflIn ∧ t = { s with rflIn := v }) ∨
    (r = .status ∧ t = { s with status := s.status.writeOneToClear v }) ∨
    (r = .cmd ∧ dispatch v s = .next t) := by
  cases r <;> simp only [writeRegister, reduceCtorEq, false_and, true_and, false_or, or_false] at h ⊢
  case width => exact storeParameter_next h
  case poly => exact storeParameter_next h
  case mask => exact storeParameter_next h
  case msb => exact storeParameter_next h
  case cmd => exact h
  all_goals simpa using h.symm

theorem readRegister_next {r : Reg} (h : readRegister r s = .next t) :
    ∃ v, registerValue s r = some v ∧ t = respond (.word v) s := by
  unfold readRegister at h
  split at h
  · next v hv => exact ⟨v, hv, by simpa using h.symm⟩
  · cases h

/-- Everything a transaction that answers next can have done (R197): a register write, a value returned, or bytes stored. -/
theorem performTransaction_next {T : Transaction} (h : performTransaction T s = .next t) :
    (∃ r v, T = .wr r v ∧ writeRegister r v s = .next t) ∨
    (∃ v, t = respond v s) ∨
    (∃ a b, T = .bwr8 a b ∧ t = { s with dbuf := Memory.write s.dbuf a b }) ∨
    (∃ a v, T = .bwr64 a v ∧ t = { s with dbuf := Memory.write64 s.dbuf a v }) := by
  cases T with
  | wr r v => exact .inl ⟨r, v, rfl, h⟩
  | rd r =>
    obtain ⟨v, -, rfl⟩ := readRegister_next h
    exact .inr (.inl ⟨_, rfl⟩)
  | lutrd k =>
    obtain ⟨v, -, rfl⟩ := respondOr_next h
    exact .inr (.inl ⟨_, rfl⟩)
  | brd8 a =>
    obtain ⟨v, -, rfl⟩ := respondOr_next h
    exact .inr (.inl ⟨_, rfl⟩)
  | brd64 a =>
    obtain ⟨v, -, rfl⟩ := respondOr_next h
    exact .inr (.inl ⟨_, rfl⟩)
  | bwr8 a b => exact .inr (.inr (.inl ⟨a, b, rfl, by simpa [performTransaction, writeBuffer8] using h.symm⟩))
  | bwr64 a v => exact .inr (.inr (.inr ⟨a, v, rfl, by simpa [performTransaction, writeBuffer64] using h.symm⟩))
  | lutwr k v => cases h
  | reserved => cases h
  | busError => cases h
  | outside => cases h

/-- A command changes neither the program nor where the engine is (R17, R37). -/
theorem exec_keepsProgram {i : Instr} (h : exec i s = .next t) :
    t.build = s.build ∧ t.engineBase = s.engineBase ∧ t.pending = s.pending ∧ t.position = s.position ∧
      t.faultMark = s.faultMark ∧ t.refusedMark = s.refusedMark := by
  rcases exec_next h with ⟨-, -, rfl⟩ | ⟨-, rfl⟩ | ⟨-, -, rfl⟩ | ⟨-, -, rfl⟩ | ⟨-, -, c, rfl⟩ | ⟨-, -, rfl⟩ |
    ⟨n, -, rfl⟩ <;> simp

/-- No transaction changes the program, where the engine is, or the marks: only the step around it does (R37, R197). -/
theorem performTransaction_keepsProgram {T : Transaction} (h : performTransaction T s = .next t) :
    t.build = s.build ∧ t.engineBase = s.engineBase ∧ t.pending = s.pending ∧ t.position = s.position ∧
      t.faultMark = s.faultMark ∧ t.refusedMark = s.refusedMark := by
  rcases performTransaction_next h with ⟨r, v, -, hw⟩ | ⟨v, rfl⟩ | ⟨a, b, -, rfl⟩ | ⟨a, v, -, rfl⟩
  · rcases writeRegister_next hw with ⟨-, -, rfl⟩ | ⟨-, -, rfl⟩ | ⟨-, -, rfl⟩ | ⟨-, -, rfl⟩ | ⟨-, rfl⟩ | ⟨-, rfl⟩ |
      ⟨-, rfl⟩ | ⟨-, rfl⟩ | ⟨-, rfl⟩ | ⟨-, rfl⟩ | ⟨-, hd⟩
    case inr.inr.inr.inr.inr.inr.inr.inr.inr.inr =>
      rcases dispatch_next hd with ⟨-, rfl⟩ | ⟨i, -, he⟩
      · simp
      · exact exec_keepsProgram he
    all_goals simp
  all_goals simp

/-- A step that answers next leaves an idle engine as it is, or performs the next transaction (R197, R224). -/
theorem step_next (h : step s = .next t) :
    legalBuild s.build = true ∧
      ((s.pending = [] ∧ t = s) ∨ ∃ a rest, s.pending = a :: rest ∧ perform a (s.takeTransaction rest) = .next t) := by
  unfold step at h
  split at h
  · next hb =>
    refine ⟨hb, ?_⟩
    cases hp : s.pending with
    | nil =>
      rw [hp] at h
      exact .inl ⟨rfl, by simpa using h.symm⟩
    | cons a rest =>
      rw [hp] at h
      exact .inr ⟨a, rest, rfl, h⟩
  · cases h

end Transactions

section BusDecode

/-- An access in the window is decoded by its offset (R61). -/
theorem decodeAccess_cases (base : Nat) (a : Access) :
    decodeAccess base a = .outside ∨
      (a.addr - base < 0x2000 ∧ decodeAccess base a = decodeOffset (a.addr - base) a.op) := by
  unfold decodeAccess
  split_ifs with h1 h2
  · exact .inl rfl
  · exact .inl rfl
  · exact .inr ⟨by simp only [windowBytes] at h2; omega, rfl⟩

/-- The DBUF addresses and LUT numbers of a transaction lie inside the memories. -/
def InBounds : Transaction → Prop
  | .bwr8 k _ => k < 4096
  | .bwr64 k _ => k + 8 ≤ 4096
  | .brd8 k => k < 4096
  | .brd64 k => k + 8 ≤ 4096
  | .lutrd k => k < 256
  | .lutwr k _ => k < 256
  | _ => True

theorem decodeNarrow_inBounds {off : Nat} {f : Nat → Transaction} (h : off < 0x2000)
    (hf : ∀ k, k < 4096 → InBounds (f k)) : InBounds (decodeNarrow off f) := by
  unfold decodeNarrow dbufOffset
  split_ifs
  · trivial
  · trivial
  · trivial
  · exact hf _ (by omega)

theorem decodeWide_inBounds {off : Nat} {r : Reg → Transaction} {l f : Nat → Transaction} (h : off < 0x2000)
    (hr : ∀ x, InBounds (r x)) (hl : ∀ k, k < 256 → InBounds (l k)) (hf : ∀ k, k + 8 ≤ 4096 → InBounds (f k)) :
    InBounds (decodeWide off r l f) := by
  unfold decodeWide dbufOffset lutOffset
  split_ifs
  · trivial
  · exact hr _
  · trivial
  · exact hl _ (by omega)
  · exact hf _ (by omega)

/-- The bus decode gives DBUF addresses inside the buffer and LUT numbers inside the table (R61). -/
theorem decodeOffset_inBounds {off : Nat} (op : BusOp) (h : off < 0x2000) : InBounds (decodeOffset off op) := by
  cases op <;> simp only [decodeOffset]
  case read8 => exact decodeNarrow_inBounds h (by simp [InBounds])
  case write8 b => exact decodeNarrow_inBounds h (by simp [InBounds])
  case read64 => exact decodeWide_inBounds h (by simp [InBounds]) (by simp [InBounds]) (by simp [InBounds])
  case write64 v => exact decodeWide_inBounds h (by simp [InBounds]) (by simp [InBounds]) (by simp [InBounds])
  case read16 => trivial
  case read32 => trivial
  case write16 v => trivial
  case write32 v => trivial

theorem decodeAccess_inBounds (base : Nat) (a : Access) : InBounds (decodeAccess base a) := by
  rcases decodeAccess_cases base a with h | ⟨hlt, h⟩
  · rw [h]
    trivial
  · rw [h]
    exact decodeOffset_inBounds a.op hlt

end BusDecode

section Hosts

/-- Every arrival order interleaves the programs its hosts issued, so a statement about every `pending` is one about every
interleaving (R71). -/
theorem interleaves_ofHost (p : List Access) : Interleaves p (fun h => ofHost h p) := fun _ => rfl

/-- A host's own order is kept by any arrival order (R71). -/
theorem ofHost_sublist (h : Nat) (p : List Access) : (ofHost h p).Sublist p := List.filter_sublist

end Hosts

end Sys2Proof.Machine
end

