-- ==== Sys2Proof/Laws/PerInstr.lean ====
section
/-! SUPPORT. Statements about every command as syntax, one lemma per constructor of `Instr`. -/

namespace Sys2Proof.Laws

/-- Operand bits placed from bit 8 up do not reach the low byte of a command word (R91). -/
theorem or_shiftLeft_and_low (x y : Word) : (x ||| (y <<< 8)) &&& 0xFF#64 = x &&& 0xFF#64 := by
  apply BitVec.eq_of_getLsbD_eq
  intro i hi
  by_cases h : i < 8
  · simp [h]
  · have hz : (0xFF#64).getLsbD i = false := by
      rw [BitVec.getLsbD_ofNat]
      simp only [Bool.and_eq_false_iff, decide_eq_false_iff_not]
      right
      exact Nat.testBit_lt_two_pow (Nat.lt_of_lt_of_le (by decide : 0xFF < 2 ^ 8) (Nat.pow_le_pow_right (by decide) (by omega)))
    simp [hz]

namespace OpcodeField

/-- The low byte of the command word is the opcode: OP in `c[3:0]` and zeros in `c[7:4]` (R91). -/
def Statement (i : Instr) : Prop := encode i &&& 0xFF#64 = opcode i

theorem validate : Statement .validate := by
  unfold Statement
  decide

theorem init : Statement .init := by
  unfold Statement
  decide

theorem gentable : Statement .gentable := by
  unfold Statement
  decide

theorem update (byte : Byte) : Statement (.update byte) := by
  simp only [Statement, encode, operandBits, or_shiftLeft_and_low, opcode]
  decide

theorem compute (off len : Nat) : Statement (.compute off len) := by
  have h : operandBits (.compute off len) =
      (BitVec.ofNat 64 off ||| (BitVec.ofNat 64 len <<< 12)) <<< 8 := by
    simp only [operandBits, BitVec.shiftLeft_or_distrib, ← BitVec.shiftLeft_add]
  simp only [Statement, encode, h, or_shiftLeft_and_low, opcode]
  decide

theorem finalize : Statement .finalize := by
  unfold Statement
  decide

theorem reflect (n : Nat) : Statement (.reflect n) := by
  simp only [Statement, encode, operandBits, or_shiftLeft_and_low, opcode]
  decide

end OpcodeField

end Sys2Proof.Laws
end

