-- ==== Sys2Proof/Tests/Slice0.lean ====
section
/-! SUPPORT. Tests of the model on values of 95_test_vectors.md and of the rules' own examples (each names its source), the
smoke tests of WellFormed, and for every statement with hypotheses a witness that meets them together. -/

namespace Sys2Proof.Tests

open Sys2Proof.Machine

/-! ## Small states -/

/-- A DYNAMIC engine with a host-built context and the table of GENTABLE (R243). -/
def ctx (w : Nat) (p : Word) : State :=
  { State.reset with
    width := BitVec.ofNat 8 w, poly := p, msb := deriveMsb w, mask := deriveMask w
    lut := Memory.ofTable (genTable w p), status := ⟨.none, false, true, false, false⟩ }

/-- The CRC-8 context of the vectors S1 to S3. -/
def crc8 : State := ctx 8 0x07#64

/-- The CRC-8 context with "1" at DBUF[0] and DBUF[4095]. -/
def crc8buf : State := { crc8 with dbuf := [(0, 0x31#8), (4095, 0x31#8)] }

/-- A STATIC CRC-8 engine out of reset (R41). -/
def rom8 : State := State.resetOf (.static 8#8 0x07#64) 0

/-- The state with one host's transactions to come. -/
def withProgram (s : State) (ts : List Transaction) : State := { s with pending := accesses s.engineBase 0 ts }

/-- Whether an outcome is a next state with a property. -/
def nextHas (o : Outcome) (f : State → Bool) : Bool :=
  match o with
  | .next t => f t
  | .fault _ => false
  | .refused _ => false

/-- What a checked outcome gives. -/
theorem nextHas_exists {o : Outcome} {f : State → Bool} (h : nextHas o f = true) : ∃ t, o = .next t ∧ f t = true := by
  cases o with
  | next t => exact ⟨t, rfl, h⟩
  | fault g => exact absurd h (by simp [nextHas])
  | refused r => exact absurd h (by simp [nextHas])

/-- Whether an outcome is a given fault. -/
def faultIs (o : Outcome) (f : Fault) : Bool :=
  match o with
  | .next _ => false
  | .fault g => decide (g = f)
  | .refused _ => false

/-- Whether an outcome is a given refusal. -/
def refusalIs (o : Outcome) (r : Refusal) : Bool :=
  match o with
  | .next _ => false
  | .fault _ => false
  | .refused q => decide (q = r)

/-! ## WellFormed: each check refuses an ill-formed term (R101) -/

theorem test_wellFormed_refuses_count : Instr.wellFormed (.reflect 128) = false := by decide
theorem test_wellFormed_refuses_off : Instr.wellFormed (.compute 4096 0) = false := by decide
theorem test_wellFormed_refuses_len : Instr.wellFormed (.compute 0 4096) = false := by decide
theorem test_wellFormed_takes_bounds :
    Instr.wellFormed (.compute 4095 4095) = true ∧ Instr.wellFormed (.reflect 127) = true := by decide

/-! ## Decode: words written out field by field from R91 and R96 -/

theorem test_decode_validate : decode (0x00000000#32 ++ 0x000000#24 ++ 0x0#4 ++ 0x1#4) = .command .validate := by decide
theorem test_decode_init : decode (0x00000000#32 ++ 0x000000#24 ++ 0x0#4 ++ 0x2#4) = .command .init := by decide
theorem test_decode_gentable : decode (0x00000000#32 ++ 0x000000#24 ++ 0x0#4 ++ 0x3#4) = .command .gentable := by decide
theorem test_decode_update :
    decode (0x00000000#32 ++ 0x0000#16 ++ 0x57#8 ++ 0x0#4 ++ 0x4#4) = .command (.update 0x57#8) := by decide
theorem test_decode_compute :
    decode (0x00000000#32 ++ 9#12 ++ 4092#12 ++ 0x0#4 ++ 0x5#4) = .command (.compute 4092 9) := by decide
theorem test_decode_finalize : decode (0x00000000#32 ++ 0x000000#24 ++ 0x0#4 ++ 0x6#4) = .command .finalize := by decide
theorem test_decode_reflect :
    decode (0x00000000#32 ++ 0x0000#16 ++ 0#1 ++ 24#7 ++ 0x0#4 ++ 0x7#4) = .command (.reflect 24) := by decide

/-- 95_test_vectors.md section 2.8: every row is illegal. -/
theorem test_decode_illegal_rows :
    ([0x0#64, 0x8#64, 0xF#64, 0x11#64, 0x10001#64, 0x100000001#64, 0x8007#64, 0x10004#64, 0x1000006#64,
      0xF00001#64].all (fun v => (decode v).instr?.isNone)) = true := by decide

/-- The encodings of R101, and the table word of COMPUTE 4092, 9 (section 2.7, C3). -/
theorem test_encode_words :
    encode (.update 0x57#8) = 0x5704#64 ∧ encode (.compute 4092 9) = 0x009FFC05#64 ∧ encode (.reflect 100) = 0x6407#64 ∧
      decodeTableWord 64 0x009FFC05 = some (.compute 4092 9) ∧ decodeTableWord 32 0x1807 = some (.reflect 24) := by
  decide

/-! ## The datapath -/

/-- Section 2.3: rows 0x and 5x of the CRC-8 table. -/
theorem test_table_crc8_rows :
    (genTable 8 0x07#64).take 16 = [0x00#64, 0x07#64, 0x0E#64, 0x09#64, 0x1C#64, 0x1B#64, 0x12#64, 0x15#64, 0x38#64,
      0x3F#64, 0x36#64, 0x31#64, 0x24#64, 0x23#64, 0x2A#64, 0x2D#64] ∧
    (genTable 8 0x07#64)[0x57]? = some 0xA2#64 ∧ (genTable 8 0x07#64)[0xFF]? = some 0xF3#64 := by decide +kernel

/-- Section 2.3: entries of the tables at widths 16 and 64. -/
theorem test_table_wide_entries :
    (genTable 16 0x1021#64)[0x80]? = some 0x9188#64 ∧
    (genTable 64 0x42F0E1EBA9EA3693#64)[0xFF]? = some 0x9AFCE626CE85B507#64 := by decide +kernel

/-- R123: the twelve rows, the four true ones last. -/
theorem test_valid_rows :
    validParams 8 0x00 0x80 0xFF = false ∧ validParams 0 0x07 0 0 = false ∧ validParams 12 0x07 0x800 0xFFF = false ∧
    validParams 72 0x07 0 0 = false ∧ validParams 16 0x1021 0x4000 0xFFFF = false ∧
    validParams 16 0x1021 0x8000 0x7FFF = false ∧
    validParams 64 0x42F0E1EBA9EA3693 0x8000000000000000 0x7FFFFFFFFFFFFFFF = false ∧
    validParams 8 0x107 0x80 0xFF = false ∧ validParams 16 0x31021 0x8000 0xFFFF = false ∧
    validParams 8 0x07 0x80 0xFF = true ∧
    validParams 64 0x42F0E1EBA9EA3693 0x8000000000000000 0xFFFFFFFFFFFFFFFF = true ∧
    validParams 32 0x1 0x80000000 0xFFFFFFFF = true := by decide

/-! ## Commands -/

/-- Section 2.1, V12: VALID 1, STATUS 0x0C. -/
theorem test_validate_valid : nextHas (exec .validate (ctx 16 0x1021#64)) (fun t => t.status.toWord = 0x0C#64) = true := by
  decide +kernel

/-- Section 2.1, V6: a mismatched MSB gives VALID 0 and no error. -/
theorem test_validate_invalid :
    nextHas (exec .validate { ctx 16 0x1021#64 with msb := 0x4000#64 })
      (fun t => !t.status.valid && decide (t.status.cause = .none) && !t.status.errs) = true := by decide +kernel

/-- Section 2.2, I1. -/
theorem test_init_truncates_and_seeds :
    nextHas (exec .init { State.reset with width := 8#8, poly := 0x07#64, init := 0x1FF#64, final := 0x155#64 })
      (fun t => decide (t.msb = 0x80#64 ∧ t.mask = 0xFF#64 ∧ t.init = 0xFF#64 ∧ t.final = 0x55#64 ∧ t.crc = 0xFF#64 ∧
        t.status.toWord = 0x08#64 ∧ Memory.read t.lut 0x57 = some 0xA2#64)) = true := by decide +kernel

/-- Section 2.2, I7: POLY is not truncated, and a failed INIT writes STATUS only. -/
theorem test_init_rejects_wide_poly :
    nextHas (exec .init { State.reset with width := 8#8, poly := 0x107#64, init := 5#64, final := 5#64, crc := 0x1234#64 })
      (fun t => decide (t.status.toWord = 0x11#64 ∧ t.init = 5#64 ∧ t.crc = 0x1234#64 ∧ t.lut = [])) = true := by
  decide +kernel

/-- Section 2.3, G1. -/
theorem test_gentable_builds :
    nextHas (exec .gentable { crc8 with lut := [], status := ⟨.none, false, false, false, false⟩ })
      (fun t => decide (Memory.read t.lut 0xFF = some 0xF3#64 ∧ t.status.toWord = 0x08#64 ∧ t.crc = 0#64)) = true := by
  decide +kernel

/-- Section 2.3, G2: stale MSB and MASK. -/
theorem test_gentable_stale_context :
    nextHas (exec .gentable { crc8 with width := 16#8, status := ⟨.none, false, false, false, false⟩ })
      (fun t => decide (t.status.toWord = 0x11#64)) = true := by decide +kernel

/-- Section 2.5, U6: a non-zero seed at width 16. -/
theorem test_update_seeded :
    nextHas (exec (.update 0x31#8) { ctx 16 0x1021#64 with crc := 0xFFFF#64 }) (fun t => decide (t.crc = 0xC782#64)) = true := by
  decide +kernel

/-- Section 2.5, U3 and U9: REFIN reflects the byte; a CRC above MASK acts as its low byte. -/
theorem test_update_refin_and_wide_crc :
    nextHas (exec (.update 0x01#8) { crc8 with ctrl := 1#2 }) (fun t => decide (t.crc = 0x89#64)) = true ∧
    nextHas (exec (.update 0x00#8) { crc8 with crc := 0x157#64 }) (fun t => decide (t.crc = 0xA2#64)) = true := by
  decide +kernel

/-- Section 2.7, C3 with a shorter input: the addresses wrap from 4095 to 0. "11" from a zero CRC-8 register is
LUT[LUT[0x31] XOR 0x31], LUT[0x31] = 0x97 and LUT[0xA6] = 0x7B by the table of section 2.3. -/
theorem test_compute_wraps :
    nextHas (exec (.compute 4095 2) crc8buf) (fun t => decide (t.crc = 0x7B#64 ∧ t.status.toWord = 0x08#64)) = true := by
  decide +kernel

/-- Section 2.7, C7: an unwritten byte. -/
theorem test_compute_unwritten : faultIs (exec (.compute 0 1) crc8) .unwrittenDbufByte = true := by decide +kernel

/-- Section 2.6, F6: the high bits of CRC and FINAL are masked. -/
theorem test_finalize_masks :
    nextHas (exec .finalize { crc8 with final := 0x1AA#64, crc := 0x3F0#64 }) (fun t => decide (t.crc = 0x5A#64)) = true := by
  decide +kernel

/-- Section 2.6, F7: REFOUT at width 64. -/
theorem test_finalize_reflects :
    nextHas (exec .finalize { ctx 64 0x42F0E1EBA9EA3693#64 with ctrl := 2#2, crc := 1#64 })
      (fun t => decide (t.crc = 0x8000000000000000#64)) = true := by decide +kernel

/-- Section 2.4: the source's example, on the invalid reset context. -/
theorem test_reflect_example :
    nextHas (exec (.reflect 24) { State.reset with rflIn := 0xF7B3D5#64 })
      (fun t => decide (t.rflOut = 0xABCDEF#64 ∧ t.status.toWord = 0#64)) = true := by decide +kernel

/-- Section 2.4: bits at or above N are dropped, and N clamps to 64. -/
theorem test_reflect_drops_and_clamps :
    reflect 0x1FF#64 8 = 0xFF#64 ∧ reflect 0xFF#64 0 = 0#64 ∧ reflect 0x1#64 100 = 0x8000000000000000#64 ∧
      reflect 0x123456789ABCDEF0#64 64 = 0x0F7B3D591E6A2C48#64 := by decide +kernel

/-! ## Transactions (section 2.9), each as one step -/

/-- H2: `WR WIDTH, 0x108` stores 8. -/
theorem test_write_width :
    nextHas (step (withProgram State.reset [.wr .width 0x108#64])) (fun t => decide (t.width = 8#8 ∧ t.position = 1)) = true := by
  decide

/-- H5: `WR STATUS, 0x10` after H4 clears ERRS. -/
theorem test_write_status :
    nextHas (step (withProgram { State.reset with status := ⟨.illegalCommand, false, false, true, true⟩ }
      [.wr .status 0x10#64])) (fun t => decide (t.status.toWord = 0x22#64)) = true := by decide

/-- H8: writing POLY its own value clears TBLV. -/
theorem test_write_poly_clears_tblv :
    nextHas (step (withProgram crc8 [.wr .poly 0x07#64])) (fun t => !t.status.tblv) = true := by decide +kernel

/-- H1: `RD ID`. -/
theorem test_read_id :
    nextHas (step (withProgram State.reset [.rd .id])) (fun t => decide (t.response = .word 0x6372637800010040#64)) = true := by
  decide

/-- H7: `BWR64 0` stores little-endian lanes, and DBUF[3] is 0x34. -/
theorem test_buffer_write64 :
    nextHas (step (withProgram State.reset [.bwr64 0 0x3837363534333231#64]))
      (fun t => decide (Memory.read t.dbuf 3 = some 0x34#8 ∧ Memory.read t.dbuf 0 = some 0x31#8 ∧
        Memory.read64 t.dbuf 0 = some 0x3837363534333231#64)) = true := by decide +kernel

/-- H9, H10, H11: an unwritten LUT entry, a misaligned write, a read-only and a reserved register. -/
theorem test_stops :
    faultIs (step (withProgram State.reset [.lutrd 0])) .unwrittenLutEntry = true ∧
    faultIs (step (withProgram State.reset [.bwr64 4 0#64])) .busError = true ∧
    refusalIs (step (withProgram State.reset [.wr .id 5#64])) .readOnlyRegister = true ∧
    refusalIs (step (withProgram State.reset [.wr (.reserved 13) 5#64])) .reservedRegister = true := by decide

/-- Section 2.8: `WR CMD, 0` reports IllegalCommand and keeps CRC. -/
theorem test_illegal_command :
    nextHas (step (withProgram crc8 [.wr .cmd 0#64])) (fun t => decide (t.status.toWord = 0x2A#64 ∧ t.crc = 0#64)) = true := by
  decide +kernel

/-- The host's fetch: the word of UPDATE 0x57 runs as the next step, and raises on the reset context (U13). -/
theorem test_withFetchWord :
    nextHas (step (State.reset.withFetchWord 64 0x5704)) (fun t => decide (t.status.toWord = 0x11#64)) = true := by decide

/-! ## Witnesses: for each statement with hypotheses, a state and operands that meet them together -/

theorem inv_reset : Inv State.reset :=
  ⟨⟨rfl, rfl⟩, fun h => absurd h (by decide), trivial⟩

theorem inv_crc8 : Inv crc8 :=
  ⟨⟨by decide +kernel, rfl⟩, fun _ => ⟨by decide +kernel, fun k _ => Memory.read_ofTable _ k⟩, trivial⟩

theorem inv_crc8buf : Inv crc8buf :=
  ⟨⟨by decide +kernel, by decide +kernel⟩, fun _ => ⟨by decide +kernel, fun k _ => Memory.read_ofTable _ k⟩, trivial⟩

theorem lutWritten_crc8 : LutWritten crc8 := fun k hk => by
  have h : Memory.read crc8.lut k = (genTable 8 0x07#64)[k]? := Memory.read_ofTable _ k
  rw [h]
  exact isSome_genTable _ _ hk

theorem witness_DecodeOfEncodeIsTheCommand :
    Instr.wellFormed (.compute 4095 4095) = true ∧ Instr.wellFormed (.reflect 127) = true ∧
      Instr.wellFormed (.update 0xFF#8) = true := by decide

theorem witness_EncodeOfDecodeIsTheValue : decode 0x00000000FFFFFF05#64 = .command (.compute 4095 4095) := by decide

theorem witness_IllegalCommandsReportOnly : decode 0x0000000000008007#64 = .illegal .reservedFieldSet := by decide

theorem witness_InvalidContext_context :
    ¬ ConsistentParameters State.reset.width.toNat State.reset.poly State.reset.msb State.reset.mask := by decide

theorem witness_InvalidContext_candidate : ¬ ConsistentCandidate 72 0x07#64 ∧ ¬ ConsistentCandidate 8 0x107#64 := by decide

theorem witness_InitDerives_dynamic :
    ConsistentCandidate crc8.width.toNat crc8.poly ∧ crc8.build = .dynamic := by decide +kernel

theorem witness_InitDerives_fullWidth : ConsistentCandidate 64 0x8000000000000001#64 := by decide

theorem witness_InitDerives_static :
    ConsistentCandidate rom8.width.toNat rom8.poly ∧ rom8.build ≠ .dynamic := by decide +kernel

theorem witness_InitDerives_fails : ¬ ConsistentCandidate State.reset.width.toNat State.reset.poly := by decide

theorem witness_SuccessfulInit :
    Inv crc8buf ∧ ∃ t, exec .init crc8buf = .next t ∧ t.status.cause = .none ∧ BufferWritten t 4095 2 := by
  refine ⟨inv_crc8buf, _, rfl, rfl, ?_⟩
  intro i hi
  have : i = 0 ∨ i = 1 := by omega
  rcases this with rfl | rfl <;> rfl

theorem witness_GentableBuildsOrRaises_valid :
    crc8.valid = true ∧ crc8.build = .dynamic ∧ rom8.valid = true ∧ rom8.build ≠ .dynamic := by decide +kernel

theorem witness_GentableBuildsOrRaises_invalid : State.reset.valid = false := by decide

theorem witness_TableIsBuiltByBitHalving : 1 ≤ 1 ∧ 1 ≤ 64 ∧ 64 ≤ 64 := by decide

theorem witness_TableEqualsBitSerialDivision :
    ConsistentCandidate 8 0xFF#64 ∧ ConsistentCandidate 64 0xFFFFFFFFFFFFFFFF#64 := by decide

theorem witness_TableDependsOnWidthAndPolyOnly :
    Inv crc8 ∧ Inv crc8buf ∧ crc8.width = crc8buf.width ∧ crc8.poly = crc8buf.poly ∧
      ∃ t₁ t₂, exec .init crc8 = .next t₁ ∧ exec .gentable crc8buf = .next t₂ ∧
        t₁.status.cause = .none ∧ t₂.status.cause = .none :=
  ⟨inv_crc8, inv_crc8buf, rfl, rfl, _, _, rfl, rfl, rfl, rfl⟩

theorem witness_RomHoldsWhatGentableWrites :
    legalBuild (.static 8#8 0x07#64) = true ∧ crc8.build = .dynamic ∧ crc8.width = 8#8 ∧ crc8.poly = 0x07#64 ∧
      ∃ t, exec .gentable crc8 = .next t ∧ t.status.cause = .none :=
  ⟨by decide, rfl, rfl, rfl, _, rfl, rfl⟩

theorem witness_TableEntriesFitTheWidth :
    ConsistentCandidate 8 0x07#64 ∧ (genTable 8 0x07#64)[255]? = some 0xF3#64 := by decide +kernel

theorem witness_ReflectionIsAnInvolution :
    (1 ≤ 1 ∧ 1 ≤ 64 ∧ (1#64).toNat < 2 ^ 1) ∧ (1 ≤ 64 ∧ 64 ≤ 64 ∧ (0xF7B3D5#64).toNat < 2 ^ 64) := by decide

theorem witness_ReflectionIsReversalAndShift :
    ∀ i, i < 64 → (0x8000000000000000#64).getLsbD i = (1#64).getLsbD (63 - i) := by decide

theorem witness_UpdateMixesOneByte_raises : ¬ (State.reset.valid = true ∧ State.reset.status.tblv = true) := by decide

theorem witness_UpdateMixesOneByte_mixes :
    crc8.valid = true ∧ crc8.status.tblv = true ∧
      Memory.read crc8.lut (((0xFF#8).setWidth 64 ^^^ (crc8.crc >>> (crc8.width.toNat - 8))).toNat % 256) = some 0xF3#64 := by
  decide +kernel

theorem witness_UpdateMixesOneByte_unwritten :
    ({ crc8 with lut := [] } : State).valid = true ∧ ({ crc8 with lut := [] } : State).status.tblv = true ∧
      Memory.read ({ crc8 with lut := [] } : State).lut 0 = none := by decide +kernel

theorem witness_UpdateEqualsBitSerialLfsr :
    Inv crc8 ∧ crc8.valid = true ∧ crc8.status.tblv = true ∧ crc8.crc.toNat ≤ crc8.mask.toNat :=
  ⟨inv_crc8, by decide +kernel, rfl, by decide +kernel⟩

theorem witness_ComputeMixes_bytes :
    crc8buf.valid = true ∧ crc8buf.status.tblv = true ∧ LutWritten crc8buf ∧
      ∀ i, i < 2 → Memory.read crc8buf.dbuf ((4095 + i) % 4096) = [0x31#8, 0x31#8][i]? :=
  ⟨by decide +kernel, rfl, lutWritten_crc8, by decide +kernel⟩

theorem witness_ComputeMixes_unwritten :
    crc8buf.valid = true ∧ crc8buf.status.tblv = true ∧ LutWritten crc8buf ∧
      ∃ i, i < 3 ∧ Memory.read crc8buf.dbuf ((4095 + i) % 4096) = none :=
  ⟨by decide +kernel, rfl, lutWritten_crc8, 2, by decide, by decide +kernel⟩

theorem witness_ComputeEqualsUpdates :
    (∀ i, i < [0x31#8, 0x31#8].length → Memory.read crc8buf.dbuf ((4095 + i) % 4096) = [0x31#8, 0x31#8][i]?) ∧
      [0x31#8, 0x31#8] ≠ [] ∧ crc8buf.valid = true ∧ crc8buf.status.tblv = true := by decide +kernel

theorem witness_AdjacentComputesEqualOne : ∃ t, exec (.compute 4095 1) crc8buf = .next t ∧ t.crc = 0x97#64 := by
  have h : nextHas (exec (.compute 4095 1) crc8buf) (fun t => decide (t.crc = 0x97#64)) = true := by decide +kernel
  obtain ⟨t, ht, hc⟩ := nextHas_exists h
  exact ⟨t, ht, of_decide_eq_true hc⟩

theorem witness_FinalizeXorsMasksAndReflects : crc8.valid = true ∧ State.reset.valid = false := by decide +kernel

theorem witness_EngineComputesTheBitSerialCrc : Inv crc8 ∧ ConsistentCandidate crc8.width.toNat crc8.poly :=
  ⟨inv_crc8, by decide +kernel⟩

theorem witness_SetupCommandsFrame :
    (∃ t, exec .init State.reset = .next t ∧ t.status.cause ≠ .none) ∧
      (∃ t, exec .gentable crc8 = .next t ∧ t.status.cause = .none) :=
  ⟨⟨_, rfl, by decide⟩, ⟨_, rfl, rfl⟩⟩

theorem witness_LfsrCommandsFrame :
    (∃ t, exec .finalize State.reset = .next t ∧ t.status.cause ≠ .none) ∧
      (∃ t, exec .finalize crc8 = .next t ∧ t.status.cause = .none) :=
  ⟨⟨_, rfl, by decide⟩, ⟨_, rfl, rfl⟩⟩

theorem witness_CheckerAndReflectFrame :
    (∃ t, exec .validate State.reset = .next t) ∧ (∃ t, exec (.reflect 127) State.reset = .next t) :=
  ⟨⟨_, rfl⟩, ⟨_, rfl⟩⟩

theorem witness_EveryCommandSetsCause :
    (∃ t, dispatch 0#64 State.reset = .next t) ∧
      (∃ t, performTransaction (.wr .status 0x30#64) State.reset = .next t) ∧
      (∃ t, performTransaction (.rd .status) State.reset = .next t) := ⟨⟨_, rfl⟩, ⟨_, rfl⟩, ⟨_, rfl⟩⟩

theorem witness_CommandsStopOnlyOnUnwrittenBytes : Inv crc8 ∧ faultIs (exec (.compute 0 1) crc8) .unwrittenDbufByte = true :=
  ⟨inv_crc8, test_compute_unwritten⟩

theorem witness_FailedBuildMeansNoCurrentTable :
    Inv State.reset ∧ ∃ t, exec .gentable State.reset = .next t ∧ t.status.cause = .invalidParameters :=
  ⟨inv_reset, _, rfl, rfl⟩

theorem witness_StepRunsTheDecodedCommand :
    legalBuild (State.reset.withFetchWord 64 1).build = true ∧
      (State.reset.withFetchWord 64 1).pending = ⟨0, 0x58, .write64 1#64⟩ :: [] ∧
      decode 1#64 = .command .validate ∧ decode 0#64 = .illegal .reservedOpcode := by decide

theorem witness_StepTakesOneTransaction :
    step State.reset = .next State.reset ∧ ∃ t, step (State.reset.withFetchWord 64 1) = .next t := ⟨rfl, _, rfl⟩

theorem witness_RunIsSequentialComposition : legalBuild State.reset.build = true := by decide

theorem witness_ProgramIsPerformedOrStops :
    legalBuild (State.reset.withFetchWord 64 1).build = true ∧ NoStop (State.reset.withFetchWord 64 1) :=
  ⟨by decide, rfl, rfl⟩

theorem witness_MarksRecordTheFirstStop :
    ({ State.reset with faultMark := true } : State).faultMark = true ∧
      NoStop (withProgram State.reset [.lutrd 0]) ∧ NoStop (withProgram State.reset [.wr .id 5#64]) ∧
      faultIs (step (withProgram State.reset [.lutrd 0])) .unwrittenLutEntry = true ∧
      refusalIs (step (withProgram State.reset [.wr .id 5#64])) .readOnlyRegister = true ∧
      step State.reset = .next State.reset :=
  ⟨rfl, ⟨rfl, rfl⟩, ⟨rfl, rfl⟩, by decide, by decide, rfl⟩

theorem witness_InstancesShareNothing : (0 : Nat) ≠ 1 := by decide

theorem witness_RegisterWriteReadsBack :
    (isParameter .width = true ∧ State.reset.build = .dynamic) ∧
      Reg.crc ∈ [Reg.init, .final, .ctrl, .crc, .rflIn] := by decide

theorem witness_ReadOnlyAndReservedAccessesAreRefused :
    (13 ≤ 13 ∧ 13 ≤ 15 ∧ 15 ≤ 15) ∧ rom8.build = .static 8#8 0x07#64 ∧ isParameter .msb = true := by decide +kernel

theorem witness_ReadsHaveNoSideEffect :
    isRead (.rd .crc) = true ∧ ∃ t, performTransaction (.rd .crc) State.reset = .next t := ⟨rfl, _, rfl⟩

theorem witness_LutReadsReturnWrittenEntries :
    Memory.read crc8.lut 255 = some 0xF3#64 ∧ Memory.read State.reset.lut 0 = none := by decide +kernel

theorem witness_BufferReadsAssembleTheirLanes :
    (∀ i, i < 8 → Memory.read (Memory.write64 [] 4088 0x3837363534333231#64) (4088 + i) =
      some (BitVec.ofNat 8 (0x31 + i))) ∧
    (0x3837363534333231#64).toNat =
      ((List.range 8).map (fun i => (BitVec.ofNat 8 (0x31 + i)).toNat * 2 ^ (8 * i))).sum ∧
    Memory.read State.reset.dbuf 0 = none ∧ Memory.read crc8buf.dbuf 0 = some 0x31#8 ∧
    (0 < 8 ∧ Memory.read State.reset.dbuf (0 + 0) = none) := by decide +kernel

theorem witness_BusErrorExactlyOnBadWidthOrAlignment :
    (⟨0, 0x1FFF, .read8⟩ : Access).addr = State.reset.engineBase + 0x1FFF ∧ 0x1FFF < 0x2000 := by decide

/-- Whether an access at an offset of a base-0 window gets a BusError on the reset state. -/
def busErrorAt (op : BusOp) (off : Nat) : Bool := faultIs (perform ⟨0, off, op⟩ State.reset) .busError

/-- R62 on both sides of 0x80, 0x800 and 0x1000: 8 bits are a BusError in the register and LUT windows only (between them
log entry 9). -/
theorem witness_BusErrorAtTheWindowBounds_8 :
    [0x7F, 0x800, 0xFFF].all (busErrorAt .read8) = true ∧
      [0x80, 0x7FF, 0x1000, 0x1FFF].any (busErrorAt .read8) = false := by decide

/-- R62: 16 and 32 bits are a BusError on both sides of every bound. -/
theorem witness_BusErrorAtTheWindowBounds_16_32 :
    [0x7E, 0x80, 0x7FE, 0x800, 0xFFE, 0x1000, 0x1FFE].all (busErrorAt (.write16 0#16)) = true ∧
      [0x7C, 0x80, 0x7FC, 0x800, 0xFFC, 0x1000, 0x1FFC].all (busErrorAt .read32) = true := by decide

/-- R63: 64 bits are a BusError exactly where misaligned, on both sides of every bound. -/
theorem witness_BusErrorAtTheWindowBounds_64 :
    [0x7F, 0x81, 0x7FF, 0x801, 0xFFF, 0x1001, 0x1FFF].all (busErrorAt (.write64 0#64)) = true ∧
      [0x78, 0x80, 0x7F8, 0x800, 0xFF8, 0x1000, 0x1FF8].any (busErrorAt (.write64 0#64)) = false := by decide

theorem witness_ReservedAndOutsideAccessesStop :
    ((⟨0, 0x7F8, .read64⟩ : Access).addr = State.reset.engineBase + 0x7F8 ∧ 0x80 ≤ 0x7F8 ∧ 0x7F8 < 0x800 ∧
      0x7F8 % 8 = 0 ∧ accessBytes .read64 = 8) ∧
    State.reset.engineBase + 0x2000 ≤ (⟨0, 0x2000, .read64⟩ : Access).addr ∧
    (⟨0, 0x7FF, .read64⟩ : Access).addr < (State.resetOf .dynamic 0x800).engineBase := by decide

theorem witness_TransactionEncodingsDecode :
    (Transaction.brd64 4088).wellFormed = true ∧ (Transaction.brd64 4088).encoding = some (0x1FF8, .read64) ∧
      (Transaction.wr (.reserved 15) 0#64).wellFormed = true ∧ (Transaction.lutrd 255).wellFormed = true := by decide

theorem witness_ParameterWriteDisablesUpdates :
    isParameter .mask = true ∧ ∃ t, performTransaction (.wr .mask 0xFF#64) crc8 = .next t := ⟨rfl, _, rfl⟩

theorem witness_ResetValues_static :
    legalBuild (.static 8#8 0x07#64) = true ∧ legalBuild (.static 64#8 0x42F0E1EBA9EA3693#64) = true := by decide

theorem witness_StaticResetIsReady : legalBuild (.static 64#8 0x1#64) = true := by decide

theorem witness_ResetMeetsTheInvariant : legalBuild .dynamic = true ∧ legalBuild (.static 8#8 0x07#64) = true := by decide

theorem witness_StepKeepsTheInvariant : Inv crc8 ∧ ∃ t, step (crc8.withFetchWord 64 6) = .next t := by
  have h : nextHas (step (crc8.withFetchWord 64 6)) (fun _ => true) = true := by decide +kernel
  obtain ⟨t, ht, -⟩ := nextHas_exists h
  exact ⟨inv_crc8, t, ht⟩

/-- The setup of R242 on the CRC-8 parameters: two register writes, then INIT. -/
def setupProgram : List Access := accesses 0 0 [.wr .width 8#64, .wr .poly 7#64, .wr .cmd 2#64]

/-- A DYNAMIC run of three steps from reset reaches TBLV = 1 (R242 steps 1 and 2), and a STATIC reset has it. -/
theorem witness_TableIsCurrentInEveryReachableState :
    (∃ s, Reachable .dynamic 0 s ∧ s.status.tblv = true) ∧
      (∃ s, Reachable (.static 8#8 0x07#64) 0 s ∧ s.status.tblv = true) := by
  have h : nextHas (step { State.resetOf .dynamic 0 with pending := setupProgram }) (fun s₁ =>
      nextHas (step s₁) (fun s₂ => nextHas (step s₂) (fun s₃ => s₃.status.tblv))) = true := by decide +kernel
  obtain ⟨s₁, h₁, h⟩ := nextHas_exists h
  obtain ⟨s₂, h₂, h⟩ := nextHas_exists h
  obtain ⟨s₃, h₃, h⟩ := nextHas_exists h
  exact ⟨⟨s₃, .step _ _ (.step _ _ (.step _ _ (.start setupProgram) h₁) h₂) h₃, h⟩, ⟨_, .start [], rfl⟩⟩

end Sys2Proof.Tests
end

/-! SUPPORT. Proofs of the statements about the state: the invariant, the outcomes of the commands, the registers,
the step and reset. -/

namespace Sys2Proof.Machine

/- One theorem is elaborated at a time here, not several side by side: while the kernel still checks the tests above, each
further worker thread reserves a whole stack, and the compile then passes its memory limit. -/
set_option deprecated.oldSectionVars true

/-! What keeps the invariant (R40): it looks at the build, the context, TBLV and the memories only. -/

section Invariant

variable {s t : State}

@[simp] theorem inv_complete : Inv (complete s) ↔ Inv s := Iff.rfl

@[simp] theorem inv_respond (r : Response) : Inv (respond r s) ↔ Inv s := Iff.rfl

@[simp] theorem inv_takeTransaction (rest : List Access) : Inv (s.takeTransaction rest) ↔ Inv s := Iff.rfl

@[simp] theorem inv_raise (e : CommandError) : Inv (raise e s) ↔ Inv s := by
  cases e <;> rfl

/-- Where TBLV = 1 every LUT entry is written (R40). -/
theorem Inv.lutWritten (h : Inv s) (ht : s.status.tblv = true) : LutWritten s := by
  obtain ⟨-, hcur, -⟩ := h
  intro k hk
  rw [(hcur ht).2 k hk]
  exact isSome_genTable _ _ hk

/-- Where TBLV = 1 the context is valid (R40). -/
theorem Inv.valid (h : Inv s) (ht : s.status.tblv = true) : s.valid = true := (h.2.1 ht).1

/-- With TBLV = 0 in `DYNAMIC`, the invariant is the memories' canonical form alone. -/
theorem inv_of_tblv_false (hb : s.build = .dynamic) (ht : s.status.tblv = false) (hm : MemoriesCanonical s) : Inv s :=
  ⟨hm, fun h => by simp [ht] at h, by simp [RomIntact, hb]⟩

/-- A table build on a valid context makes the table current, by writing it in `DYNAMIC` and by the ROM in `STATIC`
(R130, R142, R144). -/
theorem inv_buildTable (hm : MemoriesCanonical s) (hr : RomIntact s) (hv : s.valid = true) : Inv (buildTable s) := by
  obtain ⟨hlut, hdbuf⟩ := hm
  cases hb : s.build with
  | dynamic =>
    have hl := buildTable_lut_dynamic hb
    refine ⟨⟨?_, hdbuf⟩, fun _ => ⟨hv, fun k _ => ?_⟩, by simp [RomIntact, hb]⟩
    · rw [hl]
      exact wf_ofTable_genTable _ _
    · rw [hl, Memory.read_ofTable]
      rfl
  | static w p =>
    have hl := buildTable_lut_static hb
    simp only [RomIntact, hb] at hr
    obtain ⟨hw, hp, hmsb, hmask, -, hrom⟩ := hr
    refine ⟨⟨by rwa [hl], hdbuf⟩, fun _ => ⟨hv, fun k hk => ?_⟩, ?_⟩
    · simp [hl, hw, hp, hrom k hk]
    · simp only [RomIntact, buildTable_build, hb]
      exact ⟨hw, hp, hmsb, hmask, rfl, by simpa [hl] using hrom⟩

/-- The constants INIT derives are the ones a `STATIC` build holds (R27, R28, R130). -/
theorem romIntact_commitContext (h : RomIntact s) : RomIntact (commitContext s) := by
  cases hb : s.build with
  | dynamic => simp [RomIntact, hb]
  | static w p =>
    simp only [RomIntact, hb] at h
    obtain ⟨hw, hp, -, -, ht, hrom⟩ := h
    simp only [RomIntact, commitContext_build, hb]
    exact ⟨hw, hp, by simp [hw], by simp [hw], ht, hrom⟩

theorem exec_inv {i : Instr} (hs : Inv s) (h : exec i s = .next t) : Inv t := by
  obtain ⟨hm, -, hr⟩ := id hs
  rcases exec_next h with ⟨-, -, rfl⟩ | ⟨-, rfl⟩ | ⟨-, hc, rfl⟩ | ⟨-, hv, rfl⟩ | ⟨-, -, c, rfl⟩ | ⟨-, -, rfl⟩ |
    ⟨n, -, rfl⟩
  · exact (inv_raise _).2 hs
  · exact hs
  · exact inv_complete.2 (inv_buildTable hm (romIntact_commitContext hr) (by rwa [valid_commitContext]))
  · exact inv_complete.2 (inv_buildTable hm hr hv)
  · exact hs
  · exact hs
  · exact hs

theorem dispatch_inv {v : Word} (hs : Inv s) (h : dispatch v s = .next t) : Inv t := by
  rcases dispatch_next h with ⟨-, rfl⟩ | ⟨i, -, he⟩
  · exact (inv_raise _).2 hs
  · exact exec_inv hs he

/-- A parameter write leaves TBLV = 0, and no other register write reaches what the invariant speaks of (R31, R190). -/
theorem writeRegister_inv {r : Reg} {v : Word} (hs : Inv s) (h : writeRegister r v s = .next t) : Inv t := by
  obtain ⟨hm, -, -⟩ := id hs
  rcases writeRegister_next h with ⟨-, hb, rfl⟩ | ⟨-, hb, rfl⟩ | ⟨-, hb, rfl⟩ | ⟨-, hb, rfl⟩ | ⟨-, rfl⟩ | ⟨-, rfl⟩ |
    ⟨-, rfl⟩ | ⟨-, rfl⟩ | ⟨-, rfl⟩ | ⟨-, rfl⟩ | ⟨-, hd⟩
  iterate 4 exact inv_of_tblv_false hb rfl hm
  iterate 6 exact hs
  exact dispatch_inv hs hd

/-- Of DBUF the invariant asks only that it is canonical, whatever bytes it holds (R39). -/
theorem inv_withDbuf (hs : Inv s) {m : List Host.Cell} (hm : Memory.wf dbufBytes m = true) :
    Inv { s with dbuf := m } := by
  obtain ⟨⟨hlut, -⟩, hcur, hrom⟩ := hs
  exact ⟨⟨hlut, hm⟩, hcur, hrom⟩

theorem performTransaction_inv {T : Transaction} (hs : Inv s) (hT : InBounds T) (h : performTransaction T s = .next t) :
    Inv t := by
  obtain ⟨⟨-, hdbuf⟩, -, -⟩ := id hs
  rcases performTransaction_next h with ⟨r, v, -, hw⟩ | ⟨v, rfl⟩ | ⟨a, b, rfl, rfl⟩ | ⟨a, v, rfl, rfl⟩
  · exact writeRegister_inv hs hw
  · exact hs
  · exact inv_withDbuf hs (Memory.wf_write b hdbuf hT)
  · exact inv_withDbuf hs (Memory.wf_write64 v hdbuf hT)

theorem step_inv (hs : Inv s) (h : step s = .next t) : Inv t := by
  rcases (step_next h).2 with ⟨-, rfl⟩ | ⟨a, rest, -, hp⟩
  · exact hs
  · exact performTransaction_inv ((inv_takeTransaction rest).2 hs) (decodeAccess_inBounds _ a) hp

/-- Reset of a legal build holds no table in `DYNAMIC`, and the ROM's in `STATIC` (R41, R144). -/
theorem inv_resetOf {b : Build} (base : Nat) (h : legalBuild b = true) : Inv (State.resetOf b base) := by
  cases b with
  | dynamic => exact inv_of_tblv_false rfl rfl ⟨rfl, rfl⟩
  | static w p =>
    have hrom : ∀ k, k < tableEntries →
        Memory.read (Memory.ofTable (genTable w.toNat p)) k = (genTable w.toNat p)[k]? :=
      fun k _ => Memory.read_ofTable _ k
    exact ⟨⟨wf_ofTable_genTable _ _, rfl⟩, fun _ => ⟨h, hrom⟩, rfl, rfl, rfl, rfl, rfl, hrom⟩

theorem reachable_inv {b : Build} {base : Nat} (hb : legalBuild b = true) (h : Reachable b base s) : Inv s := by
  induction h with
  | start p => exact inv_resetOf base hb
  | step s t _ hst ih => exact step_inv ih hst

end Invariant

/-- Settles O58: each transaction that answers next keeps the invariant, and the bus decode keeps its addresses in
bounds. -/
theorem stepKeepsTheInvariant : Obligations.StepKeepsTheInvariant :=
  fun _ _ hs h => step_inv hs h

/-- Settles O57, from the reset of either variant; the program placed in `pending` is not looked at. -/
theorem resetMeetsTheInvariant : Obligations.ResetMeetsTheInvariant :=
  fun _ base _ hb => inv_resetOf base hb

/-- Settles O59: the invariant holds at reset and every step keeps it. -/
theorem tableIsCurrentInEveryReachableState : Obligations.TableIsCurrentInEveryReachableState :=
  fun _ _ _ hb hr ht => (reachable_inv hb hr).2.1 ht

/-! The generated table's bound (R36): every pass masks to WIDTH bits what it mixes in. -/

theorem divStep_toNat_lt {w : Nat} (hw : w ≤ 64) (r p : Word) : (divStep r w p).toNat < 2 ^ w := by
  have hmask : (deriveMask w).toNat < 2 ^ w := by
    rw [toNat_deriveMask hw]
    exact Nat.sub_one_lt (by positivity)
  rw [divStep, BitVec.toNat_and]
  exact Nat.and_lt_two_pow _ hmask

/-- The passes of R140 keep the bound: an appended entry is an XOR of two values that fit. -/
theorem tablePasses_toNat_lt {w : Nat} (hw : w ≤ 64) (p : Word) (n : Nat) (crc : Word) {t : List Word}
    (ht : ∀ e ∈ t, e.toNat < 2 ^ w) : ∀ e ∈ tablePasses w p n crc t, e.toNat < 2 ^ w := by
  induction n generalizing crc t with
  | zero => exact ht
  | succ n ih =>
    refine ih _ fun e he => ?_
    rcases List.mem_append.1 he with he | he
    · exact ht e he
    · obtain ⟨x, hx, rfl⟩ := List.mem_map.1 he
      rw [BitVec.toNat_xor]
      exact Nat.xor_lt_two_pow (divStep_toNat_lt hw crc p) (ht x hx)

theorem genTable_toNat_lt {w : Nat} (hw : w ≤ 64) (p : Word) : ∀ e ∈ genTable w p, e.toNat < 2 ^ w :=
  tablePasses_toNat_lt hw p 8 (deriveMsb w) (by simp)

/-- Settles O17: the bound holds of `t[0] = 0` and every pass keeps it. -/
theorem tableEntriesFitTheWidth : Obligations.TableEntriesFitTheWidth := by
  rintro w p ⟨-, -, -, hw, -⟩ k e hk
  exact genTable_toNat_lt hw p e (List.mem_of_getElem? hk)

/-! The commands' outcomes: what makes each one raise, complete or stop, and COMPUTE as a run of UPDATEs. -/

section NotReady

variable {s : State}

theorem ready_eq_false_of_tblv (h : s.status.tblv = false) : s.ready = false := by
  simp [State.ready, h]

theorem ready_eq_false_of_valid (h : s.valid = false) : s.ready = false := by
  simp [State.ready, h]

theorem ready_eq_false_iff : s.ready = false ↔ ¬ (s.valid = true ∧ s.status.tblv = true) := by
  rw [← ready_iff, Bool.not_eq_true]

theorem execUpdate_of_not_ready (b : Byte) (h : s.ready = false) :
    exec (.update b) s = .next (raise .invalidParameters s) := by
  simp [exec, execUpdate, h]

theorem execCompute_of_not_ready (off len : Nat) (h : s.ready = false) :
    exec (.compute off len) s = .next (raise .invalidParameters s) := by
  simp [exec, execCompute, h]

theorem execUpdate_of_ready (b : Byte) (h : s.ready = true) : exec (.update b) s = completeOr (absorb b s) := by
  simp [exec, execUpdate, h]

theorem execCompute_of_ready (off len : Nat) (h : s.ready = true) :
    exec (.compute off len) s = completeOr (absorbFrom (dbufAddresses off len) s) := by
  simp [exec, execCompute, h]

end NotReady

section ComputeAsUpdates

variable {s : State}

@[simp] theorem dbufAddresses_zero (off : Nat) : dbufAddresses off 0 = [] := rfl

/-- The first address, then those of a COMPUTE that starts one byte later (R95). -/
theorem dbufAddresses_succ (off len : Nat) :
    dbufAddresses off (len + 1) = (off % 4096) :: dbufAddresses (off + 1) len := by
  simp [dbufAddresses, dbufAddress, dbufBytes, List.range_succ_eq_map, Nat.add_assoc, Nat.add_comm 1, Function.comp_def]

/-- One byte of the loop, whose content is known (R180). -/
theorem absorbFrom_cons_of_read {a : Nat} {as : List Nat} {b : Byte} (h : Memory.read s.dbuf a = some b) :
    absorbFrom (a :: as) s = (absorb b s).bind (absorbFrom as) := by
  simp only [absorbFrom, h]
  cases absorb b s <;> rfl

@[simp] theorem lutIndexOf_complete (b : Byte) : (complete s).lutIndexOf b = s.lutIndexOf b := rfl

/-- Completing first changes no UPDATE on a ready context: it writes CAUSE anyway (R32, R160). -/
theorem execUpdate_complete (b : Byte) (h : s.ready = true) : exec (.update b) (complete s) = exec (.update b) s := by
  rw [execUpdate_of_ready b h, execUpdate_of_ready b (by rwa [ready_complete])]
  simp only [absorb, complete_lut, lutIndexOf_complete]
  cases Memory.read s.lut (s.lutIndexOf b) <;> rfl

theorem execAll_updates_raise (bytes : List Byte) (h : s.ready = false) :
    execAll (bytes.map .update) (raise .invalidParameters s) = .next (raise .invalidParameters s) := by
  induction bytes with
  | nil => rfl
  | cons b bytes ih =>
    simpa [execAll, execUpdate_of_not_ready b (s := raise .invalidParameters s) (by simpa using h)] using ih

/-- On a ready context the UPDATEs of bytes that stand in DBUF are the loop of R180 over their addresses. -/
theorem execAll_updates_complete {off : Nat} {bytes : List Byte} (hs : s.ready = true)
    (h : ∀ i, i < bytes.length → Memory.read s.dbuf ((off + i) % 4096) = bytes[i]?) :
    execAll (bytes.map .update) (complete s) = completeOr (absorbFrom (dbufAddresses off bytes.length) s) := by
  induction bytes generalizing off s with
  | nil => rfl
  | cons b bytes ih =>
    have hb : Memory.read s.dbuf (off % 4096) = some b := h 0 (by simp)
    have hrest : ∀ i, i < bytes.length → Memory.read s.dbuf ((off + 1 + i) % 4096) = bytes[i]? := fun i hi => by
      simpa [Nat.add_assoc, Nat.add_comm 1] using h (i + 1) (by simpa using hi)
    rw [List.length_cons, dbufAddresses_succ, absorbFrom_cons_of_read hb, List.map_cons, execAll,
      execUpdate_complete b hs, execUpdate_of_ready b hs]
    rcases absorb_cases b s with ⟨e, -, habs⟩ | ⟨-, habs⟩
    · rw [habs]
      exact ih hs hrest
    · rw [habs]
      rfl

/-- Completing before the UPDATEs of at least one byte changes nothing, as the first of them writes CAUSE (R32). -/
theorem execAll_updates_of_complete {bytes : List Byte} (hs : s.ready = true) (hne : bytes ≠ []) :
    execAll (bytes.map .update) (complete s) = execAll (bytes.map .update) s := by
  cases bytes with
  | nil => exact absurd rfl hne
  | cons b bytes => rw [List.map_cons, execAll, execAll, execUpdate_complete b hs]

/-- Settles O24: on a ready context both sides are the loop of R180, and on any other each UPDATE raises as the COMPUTE
does. -/
theorem computeEqualsUpdates : Obligations.ComputeEqualsUpdates := by
  intro s off bytes hbytes
  refine ⟨fun hne => ?_, fun hv ht => ?_, fun hnot => ?_⟩
  · cases hs : s.ready with
    | true =>
      rw [execCompute_of_ready _ _ hs, ← execAll_updates_of_complete hs hne, execAll_updates_complete hs hbytes]
    | false =>
      obtain ⟨b, bytes, rfl⟩ := List.exists_cons_of_ne_nil hne
      rw [execCompute_of_not_ready _ _ hs, List.map_cons, execAll, execUpdate_of_not_ready b hs]
      exact (execAll_updates_raise bytes hs).symm
  · rw [execCompute_of_ready _ _ ((ready_iff s).2 ⟨hv, ht⟩)]
    rfl
  · exact execCompute_of_not_ready _ _ (ready_eq_false_iff.2 hnot)

end ComputeAsUpdates

section Stops

variable {s t : State}

/-- The entry a byte selects is one of the 256 (R160 step 3). -/
theorem LutWritten.read_lutIndexOf_ne_none (h : LutWritten s) (b : Byte) : Memory.read s.lut (s.lutIndexOf b) ≠ none :=
  Option.isSome_iff_ne_none.1 (h _ (lutIndex_lt _ _ _))

/-- With every entry written the loop never stops on the LUT (R180). -/
theorem absorbFrom_ne_unwrittenLutEntry {as : List Nat} (h : LutWritten s) :
    absorbFrom as s ≠ .error .unwrittenLutEntry := by
  induction as generalizing s with
  | nil => simp [absorbFrom]
  | cons a as ih =>
    cases hr : Memory.read s.dbuf a with
    | none => simp [absorbFrom, hr]
    | some b =>
      rw [absorbFrom_cons_of_read hr]
      rcases absorb_cases b s with ⟨e, -, habs⟩ | ⟨hnone, -⟩
      · rw [habs]
        exact ih h
      · exact absurd hnone (h.read_lutIndexOf_ne_none b)

theorem exec_ne_refused (i : Instr) (s : State) (r : Refusal) : exec i s ≠ .refused r := by
  cases i with
  | validate => simp [exec, execValidate]
  | init => rcases execInit_cases s with ⟨-, h⟩ | ⟨-, h⟩ <;> simp [exec, h]
  | gentable => rcases execGentable_cases s with ⟨-, h⟩ | ⟨-, h⟩ <;> simp [exec, h]
  | update b => rcases execUpdate_cases b s with ⟨-, h⟩ | ⟨-, e, -, h⟩ | ⟨-, -, h⟩ <;> simp [exec, h]
  | compute off len => rcases execCompute_cases off len s with ⟨-, h⟩ | ⟨-, c, -, h⟩ | ⟨-, f, -, h⟩ <;> simp [exec, h]
  | finalize => rcases execFinalize_cases s with ⟨-, h⟩ | ⟨-, h⟩ <;> simp [exec, h]
  | reflect n => simp [exec, execReflect]

/-- Everything a command that faults can have met: UPDATE an unwritten entry, or COMPUTE a stop of its loop (R197). -/
theorem exec_fault {i : Instr} {f : Fault} (h : exec i s = .fault f) :
    s.ready = true ∧
      ((∃ b, i = .update b ∧ Memory.read s.lut (s.lutIndexOf b) = none) ∨
        ∃ off len, i = .compute off len ∧ absorbFrom (dbufAddresses off len) s = .error f) := by
  cases i with
  | validate => cases h
  | init => rcases execInit_cases s with ⟨-, h'⟩ | ⟨-, h'⟩ <;> simp [exec, h'] at h
  | gentable => rcases execGentable_cases s with ⟨-, h'⟩ | ⟨-, h'⟩ <;> simp [exec, h'] at h
  | update b =>
    rcases execUpdate_cases b s with ⟨-, h'⟩ | ⟨-, e, -, h'⟩ | ⟨hs, hnone, -⟩
    · simp [exec, h'] at h
    · simp [exec, h'] at h
    · exact ⟨hs, .inl ⟨b, rfl, hnone⟩⟩
  | compute off len =>
    rcases execCompute_cases off len s with ⟨-, h'⟩ | ⟨-, c, -, h'⟩ | ⟨hs, g, hg, h'⟩
    · simp [exec, h'] at h
    · simp [exec, h'] at h
    · obtain rfl : g = f := by simpa [exec, h'] using h
      exact ⟨hs, .inr ⟨off, len, rfl, hg⟩⟩
  | finalize => rcases execFinalize_cases s with ⟨-, h'⟩ | ⟨-, h'⟩ <;> simp [exec, h'] at h
  | reflect n => cases h

/-- An address of a COMPUTE that reads nothing is a byte of it that is unwritten (R180). -/
theorem not_bufferWritten {off len a : Nat} (ha : a ∈ dbufAddresses off len) (hr : Memory.read s.dbuf a = none) :
    ¬ BufferWritten s off len := by
  obtain ⟨i, hi, rfl⟩ := List.mem_map.1 ha
  intro hw
  simpa [hr] using hw i (List.mem_range.1 hi)

/-- Settles O32: a command that faults is ready, so by the invariant its LUT is written and only DBUF is left. -/
theorem commandsStopOnlyOnUnwrittenBytes : Obligations.CommandsStopOnlyOnUnwrittenBytes := by
  refine fun s i hs => ⟨exec_ne_refused i s, fun f hf => ?_⟩
  obtain ⟨hready, hstop⟩ := exec_fault hf
  have hlut : LutWritten s := hs.lutWritten ((ready_iff s).1 hready).2
  rcases hstop with ⟨b, -, hnone⟩ | ⟨off, len, rfl, hloop⟩
  · exact absurd hnone (hlut.read_lutIndexOf_ne_none b)
  · rcases absorbFrom_error hloop with rfl | ⟨rfl, a, ha, hr⟩
    · exact absurd hloop (absorbFrom_ne_unwrittenLutEntry hlut)
    · exact ⟨rfl, off, len, rfl, not_bufferWritten ha hr⟩

end Stops

section Causes

variable {s t : State}

/-- A command completes with CAUSE 0, or raises InvalidParameters (R32). -/
theorem exec_status {i : Instr} (h : exec i s = .next t) :
    (t.status.cause = .none ∧ t.status.errs = s.status.errs ∧ t.status.ills = s.status.ills) ∨
      t = raise .invalidParameters s := by
  rcases exec_next h with ⟨-, -, rfl⟩ | ⟨-, rfl⟩ | ⟨-, -, rfl⟩ | ⟨-, -, rfl⟩ | ⟨-, -, c, rfl⟩ | ⟨-, -, rfl⟩ | ⟨n, -, rfl⟩
  · exact .inr rfl
  all_goals exact .inl ⟨rfl, rfl, rfl⟩

/-- A register write other than a CMD write leaves CAUSE and VALID, and only a STATUS write may touch ERRS and ILLS
(R31, R32). -/
theorem writeRegister_status {r : Reg} {v : Word} (hr : r ≠ .cmd) (h : writeRegister r v s = .next t) :
    t.status.cause = s.status.cause ∧ t.status.valid = s.status.valid ∧
      (r ≠ .status → t.status.errs = s.status.errs ∧ t.status.ills = s.status.ills) := by
  rcases writeRegister_next h with ⟨-, -, rfl⟩ | ⟨-, -, rfl⟩ | ⟨-, -, rfl⟩ | ⟨-, -, rfl⟩ | ⟨-, rfl⟩ | ⟨-, rfl⟩ |
    ⟨-, rfl⟩ | ⟨-, rfl⟩ | ⟨-, rfl⟩ | ⟨rfl, rfl⟩ | ⟨rfl, -⟩
  iterate 9 exact ⟨rfl, rfl, fun _ => ⟨rfl, rfl⟩⟩
  · exact ⟨rfl, rfl, fun hne => absurd rfl hne⟩
  · exact absurd rfl hr

/-- Settles O31, from what a dispatched command and what a transaction can do. -/
theorem everyCommandSetsCauseInOneOfThreeWays : Obligations.EveryCommandSetsCauseInOneOfThreeWays := by
  refine ⟨fun v s t h => ?_, fun T s t hcmd h => ?_⟩
  · rcases dispatch_next h with ⟨-, rfl⟩ | ⟨i, -, he⟩
    · exact .inr (.inr ⟨rfl, rfl, rfl⟩)
    · rcases exec_status he with hnone | rfl
      · exact .inl hnone
      · exact .inr (.inl ⟨rfl, rfl, rfl⟩)
  · rcases performTransaction_next h with ⟨r, v, rfl, hw⟩ | ⟨v, rfl⟩ | ⟨a, b, -, rfl⟩ | ⟨a, v, -, rfl⟩
    · obtain ⟨hcause, hvalid, hsticky⟩ := writeRegister_status (by rintro rfl; exact hcmd v rfl) hw
      exact ⟨hcause, hvalid, fun hne => hsticky (by rintro rfl; exact hne v rfl)⟩
    all_goals exact ⟨rfl, rfl, fun _ => ⟨rfl, rfl⟩⟩

/-- INIT and GENTABLE complete where the context is valid (R130, R142). -/
theorem exec_build_completes {i : Instr} (hi : i = .init ∨ i = .gentable) (hv : s.valid = true) (h : exec i s = .next t) :
    t.status.cause = .none := by
  have hc : validCandidate s.width s.poly = true := ((valid_iff s).1 hv).1
  rcases hi with rfl | rfl
  · rcases execInit_cases s with ⟨hf, -⟩ | ⟨-, h'⟩
    · simp [hc] at hf
    · obtain rfl : complete (buildTable (commitContext s)) = t := by simpa [exec, h'] using h
      rfl
  · rcases execGentable_cases s with ⟨hf, -⟩ | ⟨-, h'⟩
    · simp [hv] at hf
    · obtain rfl : complete (buildTable s) = t := by simpa [exec, h'] using h
      rfl

/-- Settles O33: with TBLV = 1 the invariant makes the context valid, and the build would have completed. -/
theorem failedBuildMeansNoCurrentTable : Obligations.FailedBuildMeansNoCurrentTable := by
  intro s t i hs hi h hcause
  have htblv : s.status.tblv = false := by
    by_contra ht
    have hnone := exec_build_completes hi (hs.valid (by simpa using ht)) h
    simp [hcause] at hnone
  rcases exec_status h with ⟨hnone, -, -⟩ | rfl
  · simp [hcause] at hnone
  · exact ⟨htblv, htblv⟩

end Causes

section AfterReset

variable {s t : State}

/-- Where the context and the candidate are both invalid, every command that needs a context raises (R122, R241). -/
theorem exec_raises_of_no_context {i : Instr} (hv : s.valid = false) (hc : validCandidate s.width s.poly = false)
    (hi : i = .init ∨ i = .gentable ∨ (∃ b, i = .update b) ∨ (∃ off len, i = .compute off len) ∨ i = .finalize) :
    exec i s = .next (raise .invalidParameters s) := by
  rcases hi with rfl | rfl | ⟨b, rfl⟩ | ⟨off, len, rfl⟩ | rfl
  · rcases execInit_cases s with ⟨-, h⟩ | ⟨h, -⟩
    · exact h
    · simp [hc] at h
  · simp [exec, execGentable, hv]
  · exact execUpdate_of_not_ready b (ready_eq_false_of_valid hv)
  · exact execCompute_of_not_ready off len (ready_eq_false_of_valid hv)
  · simp [exec, execFinalize, hv]

/-- REFLECT of a zero RFL_IN gives 0, for every count (R150). -/
@[simp] theorem reflect_zero (n : Nat) : reflect 0#64 n = 0#64 := by
  simp [reflect]

/-- Settles O55: WIDTH = 0 and POLY = 0 make both the context and the candidate invalid. -/
theorem dynamicResetHoldsNoContext : Obligations.DynamicResetHoldsNoContext := by
  rintro base s rfl
  refine ⟨fun i hi => exec_raises_of_no_context rfl rfl hi, rfl, fun n => ?_⟩
  calc exec (.reflect n) (State.resetOf .dynamic base)
      = .next (complete { State.resetOf .dynamic base with rflOut := reflect 0#64 n }) := rfl
    _ = .next (State.resetOf .dynamic base) := by rw [reflect_zero]; rfl

/-- With a zero CRC and REFIN clear a byte selects its own entry (R160 steps 1 to 3). -/
theorem lutIndexOf_of_crc_zero (b : Byte) (hcrc : s.crc = 0#64) (hrefin : s.refin = false) :
    s.lutIndexOf b = b.toNat := by
  simpa [State.lutIndexOf, lutIndex, inputByte, hcrc, hrefin] using b.isLt

/-- Settles O56: the reset state meets the invariant with TBLV = 1, and a zero CRC leaves the entry alone. -/
theorem staticResetIsReady : Obligations.StaticResetIsReady := by
  intro w p base b hb
  have hinv := inv_resetOf base hb
  have hrefin : (State.resetOf (.static w p) base).refin = false := by
    simp [State.refin, State.resetOf, State.resetDynamic]
  have hindex : (State.resetOf (.static w p) base).lutIndexOf b = b.toNat := lutIndexOf_of_crc_zero b rfl hrefin
  rcases execUpdate_cases b (State.resetOf (.static w p) base) with ⟨hr, -⟩ | ⟨-, e, he, h⟩ | ⟨-, hnone, -⟩
  · have hready := (ready_iff _).2 ⟨hinv.valid rfl, rfl⟩
    simp [hready] at hr
  · refine ⟨_, h, ?_, rfl⟩
    rw [hindex] at he
    have hcrc : mixEntry 0#64 (deriveMask w.toNat) e = e := by simp [mixEntry]
    calc some (mixEntry 0#64 (deriveMask w.toNat) e)
        = Memory.read (State.resetOf (.static w p) base).lut b.toNat := by rw [hcrc, he]
      _ = (genTable w.toNat p)[b.toNat]? := Memory.read_ofTable _ _
  · exact absurd hnone ((hinv.lutWritten rfl).read_lutIndexOf_ne_none b)

/-- A parameter write that completes leaves TBLV = 0 (R31, R190). -/
theorem writeRegister_parameter_tblv {r : Reg} {v : Word} (hr : isParameter r = true)
    (h : writeRegister r v s = .next t) : t.status.tblv = false := by
  rcases writeRegister_next h with ⟨-, -, rfl⟩ | ⟨-, -, rfl⟩ | ⟨-, -, rfl⟩ | ⟨-, -, rfl⟩ | ⟨rfl, -⟩ | ⟨rfl, -⟩ |
    ⟨rfl, -⟩ | ⟨rfl, -⟩ | ⟨rfl, -⟩ | ⟨rfl, -⟩ | ⟨rfl, -⟩
  iterate 4 rfl
  all_goals simp [isParameter] at hr

/-- Settles O53: UPDATE and COMPUTE need TBLV, which the write has cleared. -/
theorem parameterWriteDisablesUpdates : Obligations.ParameterWriteDisablesUpdates := by
  intro s t r v hr h i hi
  have hready : t.ready = false := ready_eq_false_of_tblv (writeRegister_parameter_tblv hr h)
  rcases hi with ⟨b, rfl⟩ | ⟨off, len, rfl⟩
  · exact execUpdate_of_not_ready b hready
  · exact execCompute_of_not_ready off len hready

end AfterReset

/-! The host's transactions: the words of STATUS and ID, what a register write stores, and what a step does. -/

section StatusWord

theorem getLsbD_flagBit (b : Bool) {i k : Nat} (hi : i < 64) : (flagBit b k).getLsbD i = (b && decide (i = k)) := by
  cases b with
  | false => simp [flagBit]
  | true =>
    rw [flagBit, if_pos rfl, BitVec.getLsbD_shiftLeft, BitVec.getLsbD_one, Bool.true_and, Bool.eq_iff_iff]
    simp only [Bool.and_eq_true, decide_eq_true_eq, Bool.not_eq_true', decide_eq_false_iff_not]
    omega

/-- The bits of STATUS a host's write can name, the rest of the word being ignored (R31). -/
theorem getLsbD_stickyMask {i : Nat} (hi : i < 64) : (0x30#64).getLsbD i = (decide (i = 4) || decide (i = 5)) := by
  have hmask : 0x30#64 = flagBit true 4 ||| flagBit true 5 := rfl
  rw [hmask, BitVec.getLsbD_or, getLsbD_flagBit _ hi, getLsbD_flagBit _ hi, Bool.true_and, Bool.true_and]

/-- CAUSE reaches neither sticky bit (R31). -/
theorem causeCode_sticky (c : Cause) : c.code[4] = false ∧ c.code[5] = false := by
  cases c <;> exact ⟨rfl, rfl⟩

/-- Clearing sticky bits of STATUS by fields is clearing them in the assembled word (R31). -/
theorem toWord_writeOneToClear (v : Word) (st : Status) :
    (st.writeOneToClear v).toWord = st.toWord &&& ~~~(v &&& 0x30#64) := by
  obtain ⟨hcause4, hcause5⟩ := causeCode_sticky st.cause
  refine BitVec.eq_of_getLsbD_eq fun i hi => ?_
  simp only [Status.toWord, Status.writeOneToClear, BitVec.getLsbD_and, BitVec.getLsbD_or, BitVec.getLsbD_not,
    getLsbD_flagBit _ hi, getLsbD_stickyMask hi]
  by_cases h4 : i = 4
  · subst h4
    simp [hcause4]
  · by_cases h5 : i = 5
    · subst h5
      simp [hcause5]
    · simp [h4, h5, hi]

/-- A flag placed above every bit of a word adds its place value. -/
theorem toNat_or_flagBit {w : Word} {k : Nat} (b : Bool) (hw : w.toNat < 2 ^ k) (hk : k < 64) :
    (w ||| flagBit b k).toNat = w.toNat + 2 ^ k * b.toNat ∧ (w ||| flagBit b k).toNat < 2 ^ (k + 1) := by
  have hflag : (flagBit b k).toNat = 2 ^ k * b.toNat := by
    cases b with
    | false => simp [flagBit]
    | true => simpa [flagBit, Nat.shiftLeft_eq] using Nat.pow_lt_pow_right (by decide) hk
  have hsum : (w ||| flagBit b k).toNat = w.toNat + 2 ^ k * b.toNat := by
    rw [BitVec.toNat_or, hflag, Nat.lor_comm, ← Nat.two_pow_add_eq_or_of_lt hw, Nat.add_comm]
  have hb : 2 ^ k * b.toNat ≤ 2 ^ k := by simpa using Nat.mul_le_mul_left (2 ^ k) b.toNat_le
  exact ⟨hsum, by rw [hsum, Nat.pow_succ]; omega⟩

/-- STATUS as the sum of its fields at their places (R31). -/
theorem toNat_statusToWord (st : Status) :
    st.toWord.toNat = (match st.cause with | .none => 0 | .invalidParameters => 1 | .illegalCommand => 2) +
      4 * st.valid.toNat + 8 * st.tblv.toNat + 16 * st.errs.toNat + 32 * st.ills.toNat := by
  have hcode : st.cause.code.toNat < 2 ^ 2 := by cases st.cause <;> decide
  obtain ⟨hvalid, hvalidLt⟩ := toNat_or_flagBit st.valid hcode (by decide)
  obtain ⟨htblv, htblvLt⟩ := toNat_or_flagBit st.tblv hvalidLt (by decide)
  obtain ⟨herrs, herrsLt⟩ := toNat_or_flagBit st.errs htblvLt (by decide)
  obtain ⟨hills, -⟩ := toNat_or_flagBit st.ills herrsLt (by decide)
  rw [Status.toWord, hills, herrs, htblv, hvalid]
  cases st.cause <;> rfl

end StatusWord

/-- Settles O42: the write is `writeOneToClear`, whose word is the old one without the bits named. -/
theorem statusWriteClearsStickyBits : Obligations.StatusWriteClearsStickyBits :=
  fun s v => ⟨_, rfl, toWord_writeOneToClear v s.status, rfl⟩

/-- Settles O43: each read is `respond` of the register's value. -/
theorem registerReadsReturnTheRegisters : Obligations.RegisterReadsReturnTheRegisters :=
  fun s => ⟨rfl, rfl, rfl, rfl, rfl, rfl, rfl, rfl, rfl, rfl, rfl, ⟨_, rfl, toNat_statusToWord s.status⟩, rfl⟩

/-- Only the kind of the build enters ID (R34). -/
theorem idWord_static (w : BitVec 8) (p : Word) : idWord (.static w p) = 0x6372637800010140#64 := by
  simp only [idWord]
  decide

theorem idWord_dynamic : idWord .dynamic = 0x6372637800010040#64 := by decide

/-- Settles O44: the fields are read off the two constants. -/
theorem identityRegisterFields : Obligations.IdentityRegisterFields := by
  refine ⟨fun b => ?_, idWord_dynamic⟩
  cases b with
  | dynamic =>
    rw [idWord_dynamic]
    decide
  | static w p =>
    rw [idWord_static]
    simp

section RegisterWrites

/-- The state with `v` stored in a register that only stores: the write of R190 without what it does to TBLV. -/
def State.storeRegister (s : State) (v : Word) : Reg → State
  | .width => { s with width := v.setWidth 8 }
  | .poly => { s with poly := v }
  | .init => { s with init := v }
  | .final => { s with final := v }
  | .ctrl => { s with ctrl := v.setWidth 2 }
  | .mask => { s with mask := v }
  | .msb => { s with msb := v }
  | .crc => { s with crc := v }
  | .rflIn => { s with rflIn := v }
  | _ => s

variable (s : State) (v : Word) (r : Reg)

@[simp] theorem storeRegister_build : (s.storeRegister v r).build = s.build := by cases r <;> rfl
@[simp] theorem storeRegister_engineBase : (s.storeRegister v r).engineBase = s.engineBase := by cases r <;> rfl
@[simp] theorem storeRegister_rflOut : (s.storeRegister v r).rflOut = s.rflOut := by cases r <;> rfl
@[simp] theorem storeRegister_status : (s.storeRegister v r).status = s.status := by cases r <;> rfl
@[simp] theorem storeRegister_lut : (s.storeRegister v r).lut = s.lut := by cases r <;> rfl
@[simp] theorem storeRegister_dbuf : (s.storeRegister v r).dbuf = s.dbuf := by cases r <;> rfl
@[simp] theorem storeRegister_pending : (s.storeRegister v r).pending = s.pending := by cases r <;> rfl
@[simp] theorem storeRegister_position : (s.storeRegister v r).position = s.position := by cases r <;> rfl
@[simp] theorem storeRegister_response : (s.storeRegister v r).response = s.response := by cases r <;> rfl
@[simp] theorem storeRegister_faultMark : (s.storeRegister v r).faultMark = s.faultMark := by cases r <;> rfl
@[simp] theorem storeRegister_refusedMark : (s.storeRegister v r).refusedMark = s.refusedMark := by cases r <;> rfl

@[simp] theorem storeRegister_width :
    (s.storeRegister v r).width = if r = .width then v.setWidth 8 else s.width := by cases r <;> rfl
@[simp] theorem storeRegister_poly : (s.storeRegister v r).poly = if r = .poly then v else s.poly := by cases r <;> rfl
@[simp] theorem storeRegister_init : (s.storeRegister v r).init = if r = .init then v else s.init := by cases r <;> rfl
@[simp] theorem storeRegister_final : (s.storeRegister v r).final = if r = .final then v else s.final := by
  cases r <;> rfl
@[simp] theorem storeRegister_ctrl :
    (s.storeRegister v r).ctrl = if r = .ctrl then v.setWidth 2 else s.ctrl := by cases r <;> rfl
@[simp] theorem storeRegister_mask : (s.storeRegister v r).mask = if r = .mask then v else s.mask := by cases r <;> rfl
@[simp] theorem storeRegister_msb : (s.storeRegister v r).msb = if r = .msb then v else s.msb := by cases r <;> rfl
@[simp] theorem storeRegister_crc : (s.storeRegister v r).crc = if r = .crc then v else s.crc := by cases r <;> rfl
@[simp] theorem storeRegister_rflIn : (s.storeRegister v r).rflIn = if r = .rflIn then v else s.rflIn := by
  cases r <;> rfl

variable {s v r}

theorem isParameter_iff : isParameter r = true ↔ r = .width ∨ r = .poly ∨ r = .mask ∨ r = .msb := by
  cases r <;> simp [isParameter]

/-- In `DYNAMIC` a parameter write stores the value and clears TBLV (R31, R190). -/
theorem writeRegister_parameter_dynamic (hr : isParameter r = true) (hb : s.build = .dynamic) :
    writeRegister r v s = .next (clearTblv (s.storeRegister v r)) := by
  have hstore : ∀ u : State, u.build = .dynamic → storeParameter u = .next (clearTblv u) := fun u hu => by
    simp [storeParameter, hu]
  rcases isParameter_iff.1 hr with rfl | rfl | rfl | rfl
  all_goals exact hstore _ hb

/-- In `STATIC` the parameter registers are read-only (R35). -/
theorem writeRegister_parameter_static {w : BitVec 8} {p : Word} (hr : isParameter r = true)
    (hb : s.build = .static w p) : writeRegister r v s = .refused .readOnlyRegister := by
  have hrefuse : ∀ u : State, u.build = .static w p → storeParameter u = .refused .readOnlyRegister := fun u hu => by
    simp [storeParameter, hu]
  rcases isParameter_iff.1 hr with rfl | rfl | rfl | rfl
  all_goals exact hrefuse _ hb

/-- The other writable registers only store the value (R190). -/
theorem writeRegister_plain (hr : r ∈ [Reg.init, .final, .ctrl, .crc, .rflIn]) :
    writeRegister r v s = .next (s.storeRegister v r) := by
  simp only [List.mem_cons, List.not_mem_nil, or_false] at hr
  rcases hr with rfl | rfl | rfl | rfl | rfl
  all_goals rfl

theorem registerValue_clearTblv (hr : r ≠ .status) : registerValue (clearTblv s) r = registerValue s r := by
  cases r with
  | status => exact absurd rfl hr
  | _ => rfl

/-- Storing the low `n` bits and reading them back keeps just those bits (R21, R26). -/
theorem setWidth_setWidth_eq_and (v : Word) (n : Nat) :
    (v.setWidth n).setWidth 64 = v &&& BitVec.ofNat 64 (2 ^ n - 1) := by
  refine BitVec.eq_of_getLsbD_eq fun i hi => ?_
  rw [BitVec.getLsbD_and, BitVec.getLsbD_setWidth, BitVec.getLsbD_setWidth, BitVec.getLsbD_ofNat,
    Nat.testBit_two_pow_sub_one]
  simp [hi, Bool.and_comm]

/-- What a writable register reads as once it is stored: its implemented bits (R20, R190). -/
theorem registerValue_storeRegister_same (hr : isParameter r = true ∨ r ∈ [Reg.init, .final, .ctrl, .crc, .rflIn]) :
    registerValue (s.storeRegister v r) r = some (v &&& implementedBits r) := by
  have hwhole : some v = some (v &&& BitVec.allOnes 64) := congrArg some BitVec.and_allOnes.symm
  rw [isParameter_iff] at hr
  simp only [List.mem_cons, List.not_mem_nil, or_false] at hr
  rcases hr with (rfl | rfl | rfl | rfl) | rfl | rfl | rfl | rfl | rfl
  · exact congrArg some (setWidth_setWidth_eq_and v 8)
  iterate 5 exact hwhole
  · exact congrArg some (setWidth_setWidth_eq_and v 2)
  iterate 2 exact hwhole

theorem registerValue_storeRegister_other {r' : Reg} (h : r' ≠ r) :
    registerValue (s.storeRegister v r) r' = registerValue s r' := by
  cases r' <;> simp [registerValue, h.symm]

/-- Settles O40: the write is `storeRegister`, with TBLV cleared where the register is a parameter. -/
theorem registerWriteReadsBack : Obligations.RegisterWriteReadsBack := by
  rintro s r v (⟨hr, hb⟩ | hr)
  · have hst : r ≠ .status := by rintro rfl; simp [isParameter] at hr
    refine ⟨_, writeRegister_parameter_dynamic hr hb, ?_, fun r' hne hst' => ?_, by simp [hr], by simp, by simp, by simp,
      by simp, by simp, by simp, by simp, by simp, by simp⟩
    · rw [registerValue_clearTblv hst, registerValue_storeRegister_same (.inl hr)]
    · rw [registerValue_clearTblv hst', registerValue_storeRegister_other hne]
  · have hpar : isParameter r = false := by
      simp only [List.mem_cons, List.not_mem_nil, or_false] at hr
      rcases hr with rfl | rfl | rfl | rfl | rfl
      all_goals rfl
    exact ⟨_, writeRegister_plain hr, registerValue_storeRegister_same (.inr hr),
      fun _ hne _ => registerValue_storeRegister_other hne, by simp [hpar], by simp, by simp, by simp,
      by simp, by simp, by simp, by simp, by simp, by simp⟩

end RegisterWrites

/-- Settles O41: each refusal is the register write's or read's own arm. -/
theorem readOnlyAndReservedAccessesAreRefused : Obligations.ReadOnlyAndReservedAccessesAreRefused := by
  refine fun s v => ⟨rfl, rfl, fun n h13 h15 => ?_, fun w p hb r hr => writeRegister_parameter_static hr hb⟩
  obtain rfl | rfl | rfl : n = 13 ∨ n = 14 ∨ n = 15 := by omega
  all_goals exact ⟨rfl, rfl⟩

section Steps

variable {s t : State}

/-- A 64-bit write at offset 0x58 of the window is the CMD write (R61, R90). -/
theorem decodeAccess_cmd {base : Nat} {a : Access} {v : Word} (haddr : a.addr = base + 0x58) (hop : a.op = .write64 v) :
    decodeAccess base a = .wr .cmd v := by
  simp [decodeAccess, haddr, hop, decodeOffset, decodeWide, windowBytes, reservedOffset, Reg.ofNumber]

theorem step_of_pending {a : Access} {rest : List Access} (hb : legalBuild s.build = true) (hp : s.pending = a :: rest) :
    step s = perform a (s.takeTransaction rest) := by
  simp [step, hb, hp]

/-- A step on a CMD write dispatches its value, with the transaction taken (R37, R195). -/
theorem step_of_cmd {a : Access} {rest : List Access} {v : Word} (hb : legalBuild s.build = true)
    (hp : s.pending = a :: rest) (haddr : a.addr = s.engineBase + 0x58) (hop : a.op = .write64 v) :
    step s = dispatch v (s.takeTransaction rest) := by
  rw [step_of_pending hb hp, perform, takeTransaction_engineBase, decodeAccess_cmd haddr hop]
  rfl

theorem dispatch_of_command {v : Word} {i : Instr} (h : decode v = .command i) : dispatch v s = exec i s := by
  simp [dispatch, h]

theorem dispatch_of_illegal {v : Word} {why : Illegal} (h : decode v = .illegal why) :
    dispatch v s = .next (raise .illegalCommand s) := by
  simp [dispatch, h]

/-- Settles O34: the next transaction is the CMD write, and its step dispatches the value. -/
theorem stepRunsTheDecodedCommand : Obligations.StepRunsTheDecodedCommand := by
  refine ⟨fun s a rest v hb hp haddr hop => ⟨fun i hi => ?_, fun why hwhy => ?_⟩, fun s v i hb hi => ?_⟩
  · rw [step_of_cmd hb hp haddr hop, dispatch_of_command hi]
    rfl
  · rw [step_of_cmd hb hp haddr hop, dispatch_of_illegal hwhy]
    rfl
  · have hv : BitVec.ofNat 64 (v.toNat % 2 ^ 64) = v := by
      rw [Nat.mod_eq_of_lt v.isLt, BitVec.ofNat_toNat, BitVec.setWidth_eq]
    have hp : (s.withFetchWord 64 v.toNat).pending = commandAccess s.engineBase 0 v :: s.pending := by
      rw [withFetchWord_pending, hv]
    rw [step_of_cmd (s := s.withFetchWord 64 v.toNat) (v := v) hb hp rfl rfl, dispatch_of_command hi]
    rfl

/-- Settles O35: the transaction keeps the program, and the step around it takes the first of it. -/
theorem stepTakesOneTransaction : Obligations.StepTakesOneTransaction := by
  intro s t h
  rcases (step_next h).2 with ⟨hp, rfl⟩ | ⟨a, rest, hp, hperform⟩
  · exact ⟨rfl, rfl, rfl, rfl, .inl ⟨hp, rfl⟩⟩
  · obtain ⟨hbuild, hbase, hpending, hposition, hfault, hrefused⟩ := performTransaction_keepsProgram hperform
    exact ⟨hbuild, hbase, hfault, hrefused, .inr ⟨a, rest, hp, hpending, hposition⟩⟩

end Steps

/-- Settles O54: every value is the reset's own; MASK and MSB are read as numbers, and the ROM is the table. -/
theorem resetValues : Obligations.ResetValues := by
  refine ⟨?_, ?_⟩
  · rintro base s rfl
    exact ⟨rfl, rfl, rfl, rfl, rfl, rfl, rfl, rfl, rfl, rfl, rfl, congrArg some idWord_dynamic,
      fun _ => rfl, fun _ => rfl⟩
  · rintro w p base hb s rfl
    obtain ⟨-, -, -, hw, -⟩ := (validCandidate_iff_consistent w p).1 hb
    have hrom : ∀ k, Memory.read (State.resetOf (.static w p) base).lut k = (genTable w.toNat p)[k]? :=
      fun k => Memory.read_ofTable _ k
    refine ⟨rfl, rfl, rfl, rfl, rfl, toNat_deriveMask hw, toNat_deriveMsb hw, rfl, rfl, rfl, rfl,
      congrArg some (idWord_static w p), fun k hk => ⟨hrom k, ?_⟩, fun _ => rfl⟩
    rw [hrom]
    exact isSome_genTable _ _ hk

end Sys2Proof.Machine

/-! SUPPORT. Proofs of the statements about the buffer and the bus: the byte lanes of DBUF, what a transaction answers, the
window's map, and a run as the composition of its transactions. -/

namespace Sys2Proof.Machine

/- One theorem is elaborated at a time here too, for the memory limit named above. -/
set_option deprecated.oldSectionVars true

/-! The byte lanes of DBUF (R64, R193, R194). -/

section Lanes

/-- A byte of a word as the number it stands for (R13). -/
theorem extractLsb'_eq_ofNat_div (v : Word) (start : Nat) :
    v.extractLsb' start 8 = BitVec.ofNat 8 (v.toNat / 2 ^ start) := by
  rw [BitVec.extractLsb', Nat.shiftRight_eq_div_pow]

/-- Lanes moved up by one with a byte put below them add up, where none of them is shifted out (R64). -/
theorem toNat_ofLanes_cons (b : Byte) {bs : List Byte} (h : (Memory.ofLanes bs).toNat < 2 ^ 56) :
    (Memory.ofLanes (b :: bs)).toNat = b.toNat + 2 ^ 8 * (Memory.ofLanes bs).toNat := by
  have hshift : (Memory.ofLanes bs <<< 8).toNat = (Memory.ofLanes bs).toNat <<< 8 := by
    rw [BitVec.toNat_shiftLeft, Nat.shiftLeft_eq, Nat.mod_eq_of_lt (by omega)]
  have hbyte : (b.setWidth 64).toNat = b.toNat := BitVec.toNat_setWidth_of_le (by decide)
  rw [Memory.ofLanes, BitVec.toNat_or, hshift, hbyte, Nat.or_comm, ← Nat.shiftLeft_add_eq_or_of_lt b.isLt,
    Nat.shiftLeft_eq, Nat.mul_comm, Nat.add_comm]

theorem toNat_ofLanes_lt {bs : List Byte} (h : bs.length ≤ 8) : (Memory.ofLanes bs).toNat < 2 ^ (8 * bs.length) := by
  induction bs with
  | nil => decide
  | cons b bs ih =>
    rw [List.length_cons] at h ⊢
    have hlt := ih (by omega)
    have hfits : 2 ^ (8 * bs.length) ≤ 2 ^ 56 := Nat.pow_le_pow_right (by decide) (by omega)
    have hpow : 2 ^ (8 * (bs.length + 1)) = 2 ^ 8 * 2 ^ (8 * bs.length) := by rw [← Nat.pow_add]; congr 1; omega
    rw [toNat_ofLanes_cons b (by omega), hpow]
    have := b.isLt
    omega

/-- Up to eight lanes are the sum of their bytes at their places (R64, R194). -/
theorem toNat_ofLanes_map_range {n : Nat} (hn : n ≤ 8) (b : Nat → Byte) :
    (Memory.ofLanes ((List.range n).map b)).toNat =
      ((List.range n).map (fun i => (b i).toNat * 2 ^ (8 * i))).sum := by
  induction n generalizing b with
  | zero => rfl
  | succ n ih =>
    have hlen : ((List.range n).map (b ∘ Nat.succ)).length = n := by simp
    have hlt := toNat_ofLanes_lt (hlen.trans_le (Nat.le_of_succ_le hn))
    rw [hlen] at hlt
    have hfits : 2 ^ (8 * n) ≤ 2 ^ 56 := Nat.pow_le_pow_right (by decide) (by omega)
    have hplaces : (fun i => (b i).toNat * 2 ^ (8 * i)) ∘ Nat.succ =
        fun i => 2 ^ 8 * (((b ∘ Nat.succ) i).toNat * 2 ^ (8 * i)) := by
      funext i
      simp only [Function.comp, Nat.succ_eq_add_one]
      ring
    rw [List.range_succ_eq_map, List.map_cons, List.map_cons, List.map_map, List.map_map, List.sum_cons, hplaces,
      List.sum_map_mul_left, toNat_ofLanes_cons _ (hlt.trans_le hfits), ih (by omega)]
    simp

/-- Eight written bytes read as the word of their lanes (R194). -/
theorem read64_of_written {m : List Host.Cell} {a : Nat} {b : Nat → Byte}
    (h : ∀ i, i < 8 → Memory.read m (a + i) = some (b i)) :
    Memory.read64 m a = some (Memory.ofLanes ((List.range 8).map b)) := by
  have hbytes : Memory.readBytes m a 8 = some ((List.range 8).map b) :=
    Memory.readBytes_eq_some.2 ⟨by simp, fun i hi => by simp [h i hi, hi]⟩
  rw [Memory.read64, hbytes, Option.map_some]

/-- One unwritten byte among the eight leaves the read without a value (R194). -/
theorem read64_of_unwritten {m : List Host.Cell} {a i : Nat} (hi : i < 8) (h : Memory.read m (a + i) = none) :
    Memory.read64 m a = none := by
  cases hbytes : Memory.readBytes m a 8 with
  | none => rw [Memory.read64, hbytes, Option.map_none]
  | some bs =>
    obtain ⟨hlen, hread⟩ := Memory.readBytes_eq_some.1 hbytes
    have hnone := (hread i hi).symm.trans h
    rw [List.getElem?_eq_none_iff] at hnone
    omega

end Lanes

section BufferReads

variable {s : State} {a : Nat}

theorem readBuffer8_of_some {b : Byte} (h : Memory.read s.dbuf a = some b) :
    readBuffer8 a s = .next (respond (.byte b) s) := by
  rw [readBuffer8, h]
  rfl

theorem readBuffer8_of_none (h : Memory.read s.dbuf a = none) : readBuffer8 a s = .fault .unwrittenDbufByte := by
  rw [readBuffer8, h]
  rfl

theorem readBuffer64_of_some {v : Word} (h : Memory.read64 s.dbuf a = some v) :
    readBuffer64 a s = .next (respond (.word v) s) := by
  rw [readBuffer64, h]
  rfl

theorem readBuffer64_of_none (h : Memory.read64 s.dbuf a = none) : readBuffer64 a s = .fault .unwrittenDbufByte := by
  rw [readBuffer64, h]
  rfl

end BufferReads

/-- Settles O47: the two writes are `Memory.write` and `Memory.write64`, whose reads are known byte by byte. -/
theorem bufferWritesStoreTheirLanes : Obligations.BufferWritesStoreTheirLanes := by
  refine fun s a => ⟨fun b => ⟨_, rfl, rfl, fun k => Memory.read_write _ a k b⟩, fun v => ⟨_, rfl, rfl, fun k => ?_⟩⟩
  rw [← extractLsb'_eq_ofNat_div]
  exact Memory.read_write64 s.dbuf a v k

/-- Settles O48: the word of the lanes is the sum of the bytes at their places, and one unwritten byte stops the read. -/
theorem bufferReadsAssembleTheirLanes : Obligations.BufferReadsAssembleTheirLanes := by
  refine fun s a => ⟨fun b h => readBuffer8_of_some h, fun h => readBuffer8_of_none h, fun b h v hv => ?_,
    fun ⟨i, hi, h⟩ => readBuffer64_of_none (read64_of_unwritten hi h)⟩
  obtain rfl : Memory.ofLanes ((List.range 8).map b) = v :=
    BitVec.eq_of_toNat_eq ((toNat_ofLanes_map_range (by decide) b).trans hv.symm)
  exact readBuffer64_of_some (read64_of_written h)

/-! What a transaction answers: the reads return a value and repeat it, and only `busError` answers BusError. -/

section Answers

variable {s t : State}

@[simp] theorem registerValue_respond (r : Response) (x : Reg) : registerValue (respond r s) x = registerValue s x := by
  cases x <;> rfl

/-- A register read answers the same after a value has been returned (R68, R191). -/
theorem readRegister_repeats {x : Reg} (h : readRegister x s = .next t) :
    (∃ v, t = respond v s) ∧ readRegister x t = .next t := by
  obtain ⟨v, hv, rfl⟩ := readRegister_next h
  refine ⟨⟨_, rfl⟩, ?_⟩
  rw [readRegister, registerValue_respond, hv]
  rfl

/-- A memory read of the same content answers the same after a value has been returned (R68, R192, R194). -/
theorem respondOr_repeats {f : Fault} {r : Option Response} (h : respondOr f r s = .next t) :
    (∃ v, t = respond v s) ∧ respondOr f r t = .next t := by
  obtain ⟨v, rfl, rfl⟩ := respondOr_next h
  exact ⟨⟨v, rfl⟩, rfl⟩

/-- A read that answers next returns a value, changes nothing else, and answers the same again (R68). -/
theorem performTransaction_read_repeats {T : Transaction} (hT : isRead T = true) (h : performTransaction T s = .next t) :
    (∃ v, t = respond v s) ∧ performTransaction T t = .next t := by
  cases T with
  | rd r => exact readRegister_repeats h
  | lutrd k | brd8 a | brd64 a =>
    obtain ⟨⟨v, rfl⟩, hagain⟩ := respondOr_repeats h
    exact ⟨⟨v, rfl⟩, hagain⟩
  | _ => cases hT

theorem storeParameter_ne_fault (s : State) (f : Fault) : storeParameter s ≠ .fault f := by
  cases hb : s.build <;> simp [storeParameter, hb]

theorem readRegister_ne_fault (r : Reg) (s : State) (f : Fault) : readRegister r s ≠ .fault f := by
  cases hv : registerValue s r <;> simp [readRegister, hv]

/-- A memory read stops only with its own fault (R192, R194). -/
theorem respondOr_fault {f g : Fault} {r : Option Response} (h : respondOr f r s = .fault g) : g = f := by
  cases r with
  | none =>
    cases h
    rfl
  | some v => cases h

/-- The faults of a command are unwritten cells, never one of the bus (R197, R212). -/
theorem exec_ne_busError (i : Instr) (s : State) : exec i s ≠ .fault .busError := by
  intro h
  obtain ⟨hready, ⟨b, rfl, -⟩ | ⟨off, len, rfl, hstop⟩⟩ := exec_fault h
  · rw [execUpdate_of_ready b hready] at h
    rcases absorb_cases b s with ⟨e, -, hb⟩ | ⟨-, hb⟩
    · cases hb.symm.trans (completeOr_fault h)
    · cases hb.symm.trans (completeOr_fault h)
  · rcases absorbFrom_error hstop with hf | ⟨hf, -⟩
    · cases hf
    · cases hf

theorem dispatch_ne_busError (v : Word) (s : State) : dispatch v s ≠ .fault .busError := by
  cases hv : decode v with
  | illegal why =>
    rw [dispatch_of_illegal hv]
    nofun
  | command i =>
    rw [dispatch_of_command hv]
    exact exec_ne_busError i s

theorem writeRegister_ne_busError (r : Reg) (v : Word) (s : State) : writeRegister r v s ≠ .fault .busError := by
  cases r with
  | width | poly | mask | msb => exact storeParameter_ne_fault _ _
  | cmd => exact dispatch_ne_busError v s
  | _ => nofun

/-- BusError is decided by the bus decode alone: no other transaction answers it (R212, R214). -/
theorem performTransaction_busError_iff (T : Transaction) (s : State) :
    performTransaction T s = .fault .busError ↔ T = .busError := by
  refine ⟨fun h => ?_, by rintro rfl; rfl⟩
  cases T with
  | busError => rfl
  | wr r v => exact absurd h (writeRegister_ne_busError r v s)
  | rd r => exact absurd h (readRegister_ne_fault r s _)
  | lutrd k | brd8 a | brd64 a => cases respondOr_fault h
  | _ => cases h

end Answers

/-- Settles O45: what a read returns does not depend on the value returned before. -/
theorem readsHaveNoSideEffect : Obligations.ReadsHaveNoSideEffect := by
  intro T s t hT h
  obtain ⟨⟨v, rfl⟩, hagain⟩ := performTransaction_read_repeats hT h
  exact ⟨rfl, hagain⟩

/-! The window's map (R61): which transaction each offset means, for either width of access that a window takes. -/

section WindowMap

theorem decodeAccess_of_offset {base off : Nat} {a : Access} (haddr : a.addr = base + off) (hoff : off < 0x2000) :
    decodeAccess base a = decodeOffset off a.op := by
  have hlow : ¬ a.addr < base := by omega
  have hhigh : ¬ base + 0x2000 ≤ a.addr := by omega
  have hsub : a.addr - base = off := by omega
  rw [decodeAccess, if_neg hlow, if_neg hhigh, hsub]

theorem decodeAccess_of_outside {base : Nat} {a : Access} (h : a.addr < base ∨ base + 0x2000 ≤ a.addr) :
    decodeAccess base a = .outside := by
  unfold decodeAccess windowBytes
  split_ifs
  · rfl
  · rfl
  · omega

section Narrow

variable {f : Nat → Transaction}

/-- An 8-bit access is a BusError in the register and LUT spaces (R62). -/
theorem decodeNarrow_eq_busError {off : Nat} (hf : ∀ k, f k ≠ .busError) :
    decodeNarrow off f = .busError ↔ off < 0x80 ∨ (0x800 ≤ off ∧ off < 0x1000) := by
  unfold decodeNarrow reservedOffset lutOffset dbufOffset
  split_ifs with hreg hres hlut
  · exact iff_of_true rfl (.inl hreg)
  · exact iff_of_false nofun (by omega)
  · exact iff_of_true rfl (.inr ⟨Nat.not_lt.1 hres, hlut⟩)
  · exact iff_of_false (hf _) (by omega)

theorem decodeNarrow_dbuf (a : Nat) : decodeNarrow (dbufOffset + a) f = f a := by
  unfold decodeNarrow reservedOffset lutOffset dbufOffset
  rw [if_neg (by omega), if_neg (by omega), if_neg (by omega), Nat.add_sub_cancel_left]

end Narrow

section Wide

variable {off : Nat} {inRegs : Reg → Transaction} {inLut inDbuf : Nat → Transaction}

/-- A 64-bit access is a BusError exactly where it is misaligned (R63). -/
theorem decodeWide_eq_busError (hr : ∀ r, inRegs r ≠ .busError) (hl : ∀ k, inLut k ≠ .busError)
    (hd : ∀ a, inDbuf a ≠ .busError) : decodeWide off inRegs inLut inDbuf = .busError ↔ off % 8 ≠ 0 := by
  unfold decodeWide
  split_ifs with halign
  · exact iff_of_true rfl halign
  · exact iff_of_false (hr _) halign
  · exact iff_of_false nofun halign
  · exact iff_of_false (hl _) halign
  · exact iff_of_false (hd _) halign

theorem decodeWide_reserved (halign : off % 8 = 0) (hlow : 0x80 ≤ off) (hhigh : off < 0x800) :
    decodeWide off inRegs inLut inDbuf = .reserved := by
  rw [decodeWide, if_neg (not_not.2 halign), if_neg (Nat.not_lt.2 hlow), if_pos hhigh]

theorem decodeWide_reg {n : Nat} (hn : n < 16) :
    decodeWide (8 * n) inRegs inLut inDbuf = inRegs (Reg.ofNumber n) := by
  have hreg : 8 * n < 0x80 := by omega
  rw [decodeWide, if_neg (by simp), if_pos hreg, Nat.mul_div_cancel_left n (by decide)]

theorem decodeWide_lut {k : Nat} (hk : k < 256) :
    decodeWide (lutOffset + 8 * k) inRegs inLut inDbuf = inLut k := by
  unfold decodeWide reservedOffset lutOffset dbufOffset
  rw [if_neg (by omega), if_neg (by omega), if_neg (by omega), if_pos (by omega), Nat.add_sub_cancel_left,
    Nat.mul_div_cancel_left k (by decide)]

theorem decodeWide_dbuf {a : Nat} (ha : a % 8 = 0) :
    decodeWide (dbufOffset + a) inRegs inLut inDbuf = inDbuf a := by
  unfold decodeWide reservedOffset lutOffset dbufOffset
  rw [if_neg (by omega), if_neg (by omega), if_neg (by omega), if_neg (by omega), Nat.add_sub_cancel_left]

end Wide

/-- BusError by the width of the access, and for the widths that have a window by the offset (R62, R63). -/
theorem decodeOffset_eq_busError (off : Nat) (op : BusOp) :
    decodeOffset off op = .busError ↔
      accessBytes op = 2 ∨ accessBytes op = 4 ∨
      (accessBytes op = 1 ∧ (off < 0x80 ∨ (0x800 ≤ off ∧ off < 0x1000))) ∨ (accessBytes op = 8 ∧ off % 8 ≠ 0) := by
  cases op with
  | read8 | write8 b => simp [decodeOffset, decodeNarrow_eq_busError, accessBytes]
  | read16 | write16 v | read32 | write32 v => simp [decodeOffset, accessBytes]
  | read64 | write64 v => simp [decodeOffset, decodeWide_eq_busError, accessBytes]

theorem decodeOffset_reserved {off : Nat} {op : BusOp} (hop : accessBytes op = 8) (halign : off % 8 = 0)
    (hlow : 0x80 ≤ off) (hhigh : off < 0x800) : decodeOffset off op = .reserved := by
  cases op with
  | read64 | write64 v => rw [decodeOffset, decodeWide_reserved halign hlow hhigh]
  | _ => cases hop

/-- A register in range is the one its number names (R20). -/
theorem ofNumber_number {r : Reg} (h : r.inRange = true) : r.number < 16 ∧ Reg.ofNumber r.number = r := by
  cases r with
  | reserved n =>
    simp only [Reg.inRange, Bool.and_eq_true, decide_eq_true_eq] at h
    obtain ⟨hlow, hhigh⟩ := h
    interval_cases n
    all_goals exact ⟨by decide, rfl⟩
  | _ => exact ⟨by decide, rfl⟩

/-- The offset and operation of a well-formed transaction lie in the window and mean that transaction (R61). -/
theorem decodeOffset_encoding {T : Transaction} {off : Nat} {op : BusOp} (hT : T.wellFormed = true)
    (h : T.encoding = some (off, op)) : off < 0x2000 ∧ decodeOffset off op = T := by
  cases T with
  | wr r v | rd r =>
    cases h
    obtain ⟨hn, hr⟩ := ofNumber_number hT
    exact ⟨by omega, by rw [decodeOffset, decodeWide_reg hn, hr]⟩
  | lutrd k | lutwr k v =>
    cases h
    have hk : k < 256 := of_decide_eq_true hT
    exact ⟨by unfold lutOffset; omega, by rw [decodeOffset, decodeWide_lut hk]⟩
  | bwr8 a b | brd8 a =>
    cases h
    have ha : a < 4096 := of_decide_eq_true hT
    exact ⟨by unfold dbufOffset; omega, by rw [decodeOffset, decodeNarrow_dbuf]⟩
  | bwr64 a v | brd64 a =>
    cases h
    obtain ⟨ha, halign⟩ : a < 4096 ∧ a % 8 = 0 := by simpa [Transaction.wellFormed] using hT
    exact ⟨by unfold dbufOffset; omega, by rw [decodeOffset, decodeWide_dbuf halign]⟩
  | reserved | busError | outside => cases h

end WindowMap

/-- Settles O49: the access gets BusError exactly when it decodes to it, and the decode says where that is. -/
theorem busErrorExactlyOnBadWidthOrAlignment : Obligations.BusErrorExactlyOnBadWidthOrAlignment := by
  intro s a off haddr hoff
  rw [perform, decodeAccess_of_offset haddr hoff, performTransaction_busError_iff]
  exact decodeOffset_eq_busError off a.op

/-- Settles O50: such an access decodes to `reserved` or to `outside`. -/
theorem reservedAndOutsideAccessesStop : Obligations.ReservedAndOutsideAccessesStop := by
  refine fun s a => ⟨fun off haddr hlow hhigh halign hop => ?_, fun h => ?_⟩
  · rw [perform, decodeAccess_of_offset haddr (by omega), decodeOffset_reserved hop halign hlow hhigh]
    rfl
  · rw [perform, decodeAccess_of_outside h]
    rfl

/-- Settles O51: the window's map is read back space by space, and the base address cancels. -/
theorem transactionEncodingsDecode : Obligations.TransactionEncodingsDecode := by
  intro base host off op T hT h
  obtain ⟨hoff, hdecode⟩ := decodeOffset_encoding hT h
  exact ⟨hoff, (decodeAccess_of_offset rfl hoff).trans hdecode⟩

/-! A run over a whole program (R70). -/

/-- A run as long as the program performs its transactions in order, each on the state with it taken (R37, R70). -/
theorem run_length_eq_performAll (p : List Access) {s : State} (hb : legalBuild s.build = true) (hp : s.pending = p) :
    Host.Core.run Sys2Proof.core p.length s = performAll p s := by
  induction p generalizing s with
  | nil => rfl
  | cons a rest ih =>
    have hstep : Sys2Proof.core.step s = perform a (s.takeTransaction rest) := step_of_pending hb hp
    simp only [List.length_cons, Host.Core.run, hstep, performAll]
    cases h : perform a (s.takeTransaction rest) with
    | next t =>
      obtain ⟨hbuild, -, hpending, -⟩ := performTransaction_keepsProgram h
      exact ih (by rwa [hbuild]) hpending
    | fault f => rfl
    | refused r => rfl

/-- Settles O36, by induction on the program. -/
theorem runIsSequentialComposition : Obligations.RunIsSequentialComposition :=
  fun s hb => run_length_eq_performAll s.pending hb rfl

end Sys2Proof.Machine

/-! SUPPORT. Proofs of the statements about the command word: what a row of the opcode map says of the value's bits, what
the encoder writes into them, and that the decoder reads back the one command they stand for. -/

namespace Sys2Proof

/- One theorem is elaborated at a time here too, for the memory limit named above. For the same reason the inductive
declaration stands first: it waits until the kernel has checked the text before it. -/
set_option deprecated.oldSectionVars true

/-! A command's row and operands, and what the decoder's answer says in these words (R91, R96, R98). -/

/-- The row of the opcode map that stands for the command. -/
def Instr.row : Instr → OpRow
  | .validate => rowValidate
  | .init => rowInit
  | .gentable => rowGentable
  | .update _ => rowUpdate
  | .compute _ _ => rowCompute
  | .finalize => rowFinalize
  | .reflect _ => rowReflect

/-- The command with its operands read from a value. -/
def Instr.readFrom (v : Word) : Instr → Instr
  | .update _ => .update (byteField v)
  | .compute _ _ => .compute (offField v) (lenField v)
  | .reflect _ => .reflect (countField v)
  | i => i

/-- What an answer of the decoder says of the value: the row that selects it and its operands, or that no row does. -/
inductive AnswerFits (v : Word) : Decoded → Prop where
  | command {i : Instr} (hselects : i.row.selects v = true) (hread : i.readFrom v = i) : AnswerFits v (.command i)
  | illegal {why : Illegal} (hnone : ∀ i : Instr, ¬ i.row.selects v = true) : AnswerFits v (.illegal why)

/-! The rows of the opcode map exclude each other (R97). -/

section Rows

variable {v : Word}

theorem OpRow.selects_iff {row : OpRow} : row.selects v = true ↔ v &&& row.mask = row.pattern := decide_eq_true_iff

/-- Every mask covers `v[3:0]`, and the pattern has no other bit set. -/
theorem opcodeMap_mask_covers_opcode :
    ∀ row ∈ opcodeMap, row.mask &&& 0xF#64 = 0xF#64 ∧ row.pattern &&& 0xF#64 = row.pattern := by decide

theorem opcodeMap_patterns_differ : opcodeMap.Pairwise (fun r r' => r.pattern ≠ r'.pattern) := by decide

theorem OpRow.pattern_eq_of_selects {row : OpRow} (hrow : row ∈ opcodeMap) (h : row.selects v = true) :
    row.pattern = v &&& 0xF#64 := by
  obtain ⟨hmask, hpattern⟩ := opcodeMap_mask_covers_opcode row hrow
  calc row.pattern = (v &&& row.mask) &&& 0xF#64 := by rw [OpRow.selects_iff.1 h, hpattern]
    _ = v &&& 0xF#64 := by rw [BitVec.and_assoc, hmask]

/-- Two rows that select one value have the same opcode. -/
theorem OpRow.pattern_eq_of_both_select {row row' : OpRow} (hrow : row ∈ opcodeMap) (hrow' : row' ∈ opcodeMap)
    (h : row.selects v = true) (h' : row'.selects v = true) : row.pattern = row'.pattern := by
  rw [row.pattern_eq_of_selects hrow h, row'.pattern_eq_of_selects hrow' h']

end Rows

/-- Settles O5: two rows kept by the filter would have one opcode, and the rows differ in it. -/
theorem opcodeRowsDoNotOverlap : Obligations.OpcodeRowsDoNotOverlap := by
  intro v
  have hdiffer := opcodeMap_patterns_differ.filter (fun row => row.selects v)
  cases hkept : opcodeMap.filter (fun row => row.selects v) with
  | nil => exact Nat.zero_le 1
  | cons r rest =>
    cases rest with
    | nil => exact Nat.le_refl 1
    | cons r' rest' =>
      obtain ⟨hr, hsel⟩ := List.mem_filter.1 (hkept ▸ List.mem_cons_self : r ∈ opcodeMap.filter _)
      obtain ⟨hr', hsel'⟩ := List.mem_filter.1
        (hkept ▸ List.mem_cons_of_mem r List.mem_cons_self : r' ∈ opcodeMap.filter _)
      rw [hkept] at hdiffer
      exact absurd (OpRow.pattern_eq_of_both_select hr hr' hsel hsel')
        (List.rel_of_pairwise_cons hdiffer List.mem_cons_self)

/-! What a command's row and its operand field are (R91, R96). -/

section CommandWords

variable {v : Word} {i : Instr}

/-- How many bits the operands take, from bit 8 up; every bit above them is reserved. -/
def Instr.operandSize : Instr → Nat
  | .update _ => 8
  | .compute _ _ => 24
  | .reflect _ => 7
  | _ => 0

/-- The operands as the one number that stands from bit 8 up. -/
def Instr.operandNumber : Instr → Nat
  | .update b => b.toNat
  | .compute off len => off + 2 ^ 12 * len
  | .reflect n => n
  | _ => 0

/-- A mask with a hole of `size` bits from bit 8 up. -/
def operandHole (size : Nat) : Word := ~~~(BitVec.ofNat 64 (2 ^ size - 1) <<< 8)

theorem Instr.row_mem (i : Instr) : i.row ∈ opcodeMap := by
  cases i <;> simp [Instr.row, opcodeMap]

theorem Instr.row_pattern (i : Instr) : i.row.pattern = opcode i := by
  cases i <;> rfl

theorem Instr.row_mask (i : Instr) : i.row.mask = operandHole i.operandSize := by
  cases i <;> simp only [Instr.row, Instr.operandSize] <;> decide

theorem toNat_opcode_lt (i : Instr) : (opcode i).toNat < 2 ^ 8 := by
  cases i <;> simp [opcode]

theorem field_eq_div_mod (v : Word) (lo size : Nat) : field v lo size = v.toNat / 2 ^ lo % 2 ^ size := by
  rw [field, BitVec.extractLsb'_toNat, Nat.shiftRight_eq_div_pow]

theorem toNat_byteField (v : Word) : (byteField v).toNat = v.toNat / 2 ^ 8 % 2 ^ 8 := field_eq_div_mod v 8 8

/-- The bits that masking with the hole keeps. -/
theorem getLsbD_and_operandHole (v : Word) (size j : Nat) :
    (v &&& operandHole size).getLsbD j = (v.getLsbD j && !(decide (8 ≤ j) && decide (j < 8 + size))) := by
  by_cases hj : j < 64
  · have hsize : 8 ≤ j → (j - 8 < size ↔ j < 8 + size) := by omega
    have hword : j - 8 < 64 := by omega
    simp only [operandHole, BitVec.getLsbD_and, BitVec.getLsbD_not, BitVec.getLsbD_shiftLeft, BitVec.getLsbD_ofNat,
      Nat.testBit_two_pow_sub_one, hj, hword]
    by_cases hlow : 8 ≤ j
    · simp [hlow, hsize hlow, Nat.not_lt.2 hlow]
    · simp [hlow, Nat.not_le.1 hlow]
  · rw [BitVec.getLsbD_of_ge _ j (by omega), BitVec.getLsbD_of_ge v j (by omega), Bool.false_and]

/-- Masking with the hole keeps the low byte and what stands above the operands. -/
theorem toNat_and_operandHole (v : Word) (size : Nat) :
    (v &&& operandHole size).toNat = 2 ^ (8 + size) * (v.toNat / 2 ^ (8 + size)) + v.toNat % 2 ^ 8 := by
  have hlow : v.toNat % 2 ^ 8 < 2 ^ (8 + size) :=
    Nat.lt_of_lt_of_le (Nat.mod_lt _ (by decide)) (Nat.pow_le_pow_right (by decide) (by omega))
  apply Nat.eq_of_testBit_eq
  intro j
  rw [Nat.testBit_two_pow_mul_add _ hlow, Nat.testBit_mod_two_pow, Nat.testBit_div_two_pow, BitVec.testBit_toNat,
    BitVec.testBit_toNat, BitVec.testBit_toNat, getLsbD_and_operandHole]
  by_cases habove : j < 8 + size
  · simp [habove, Bool.and_comm, ← decide_not]
  · have hback : j - (8 + size) + (8 + size) = j := by omega
    simp [habove, hback]

/-- A row selects the values with its opcode in the low byte and nothing above its operands (R96). -/
theorem row_selects_iff :
    i.row.selects v = true ↔ v.toNat % 2 ^ 8 = (opcode i).toNat ∧ v.toNat / 2 ^ (8 + i.operandSize) = 0 := by
  have hopcode := toNat_opcode_lt i
  have hsplit : 2 ^ (8 + i.operandSize) = 2 ^ 8 * 2 ^ i.operandSize := Nat.pow_add 2 8 _
  rw [OpRow.selects_iff, i.row_pattern, i.row_mask, ← BitVec.toNat_inj, toNat_and_operandHole]
  constructor
  · intro h
    rw [hsplit] at h ⊢
    have hzero : 2 ^ i.operandSize * (v.toNat / (2 ^ 8 * 2 ^ i.operandSize)) = 0 := by
      rw [Nat.mul_assoc] at h
      omega
    have hhigh := (Nat.mul_eq_zero.1 hzero).resolve_left (Nat.two_pow_pos _).ne'
    rw [hhigh, Nat.mul_zero, Nat.zero_add] at h
    exact ⟨h, hhigh⟩
  · rintro ⟨hlow, hhigh⟩
    rw [hlow, hhigh, Nat.mul_zero, Nat.zero_add]

theorem wellFormed_compute {off len : Nat} : (Instr.compute off len).wellFormed = true ↔ off < 4096 ∧ len < 4096 := by
  simp [Instr.wellFormed, fitsStreamField]

theorem wellFormed_reflect {n : Nat} : (Instr.reflect n).wellFormed = true ↔ n < 128 := decide_eq_true_iff

/-- Reading the operands of a value fits them to their fields. -/
theorem wellFormed_readFrom (i : Instr) (v : Word) : (i.readFrom v).wellFormed = true := by
  cases i <;> simp [Instr.readFrom, Instr.wellFormed, fitsStreamField, fitsCountField, offField, lenField, countField,
    field_eq_div_mod, Nat.mod_lt]

/-- The operand number of a value, cut off at the operands' size. -/
theorem operandNumber_readFrom (i : Instr) (v : Word) :
    (i.readFrom v).operandNumber = v.toNat / 2 ^ 8 % 2 ^ i.operandSize := by
  cases i with
  | update b => exact toNat_byteField v
  | compute off len =>
    simp only [Instr.readFrom, Instr.operandNumber, Instr.operandSize, offField, lenField, field_eq_div_mod]
    omega
  | reflect n => exact field_eq_div_mod v 8 7
  | validate | init | gentable | finalize => exact (Nat.mod_one _).symm

/-- An operand that fits its field is read back from a value that holds its number. -/
theorem readFrom_eq_self (hi : i.wellFormed = true) (h : v.toNat / 2 ^ 8 = i.operandNumber) : i.readFrom v = i := by
  cases i with
  | update b =>
    have hb : (byteField v).toNat = b.toNat := by
      rw [toNat_byteField, h]
      exact Nat.mod_eq_of_lt b.isLt
    exact congrArg Instr.update (BitVec.eq_of_toNat_eq hb)
  | compute off len =>
    obtain ⟨hoff, hlen⟩ := wellFormed_compute.1 hi
    simp only [Instr.operandNumber] at h
    simp only [Instr.readFrom, offField, lenField, field_eq_div_mod, Instr.compute.injEq]
    omega
  | reflect n =>
    have hn := wellFormed_reflect.1 hi
    simp only [Instr.operandNumber] at h
    simp only [Instr.readFrom, countField, field_eq_div_mod, Instr.reflect.injEq]
    omega
  | validate | init | gentable | finalize => rfl

theorem operandNumber_lt (hi : i.wellFormed = true) : i.operandNumber < 2 ^ i.operandSize := by
  cases i with
  | update b => exact b.isLt
  | compute off len =>
    obtain ⟨hoff, hlen⟩ := wellFormed_compute.1 hi
    simp only [Instr.operandNumber, Instr.operandSize]
    omega
  | reflect n => exact wellFormed_reflect.1 hi
  | validate | init | gentable | finalize => exact Nat.one_pos

theorem toNat_ofNat_shiftLeft {x k : Nat} (h : 2 ^ k * x < 2 ^ 64) : (BitVec.ofNat 64 x <<< k).toNat = 2 ^ k * x := by
  have hx : x < 2 ^ 64 := Nat.lt_of_le_of_lt (Nat.le_mul_of_pos_left x (Nat.two_pow_pos k)) h
  rw [BitVec.toNat_shiftLeft, BitVec.toNat_ofNat, Nat.mod_eq_of_lt hx, Nat.shiftLeft_eq, Nat.mul_comm, Nat.mod_eq_of_lt h]

/-- The encoder puts the operand number at bit 8 (R91, R101). -/
theorem toNat_operandBits (hi : i.wellFormed = true) : (operandBits i).toNat = 2 ^ 8 * i.operandNumber := by
  cases i with
  | update b =>
    have hb : 2 ^ 8 * b.toNat < 2 ^ 64 := by omega
    rw [operandBits, ← BitVec.ofNat_toNat, toNat_ofNat_shiftLeft hb, Instr.operandNumber]
  | compute off len =>
    obtain ⟨hoff, hlen⟩ := wellFormed_compute.1 hi
    have hlow : 2 ^ 8 * off < 2 ^ 20 := by omega
    rw [operandBits, BitVec.toNat_or, toNat_ofNat_shiftLeft (by omega), toNat_ofNat_shiftLeft (by omega), Nat.or_comm,
      ← Nat.two_pow_add_eq_or_of_lt hlow, Instr.operandNumber]
    omega
  | reflect n =>
    have hn := wellFormed_reflect.1 hi
    rw [operandBits, toNat_ofNat_shiftLeft (by omega), Instr.operandNumber]
  | validate | init | gentable | finalize => rfl

theorem toNat_encode (hi : i.wellFormed = true) : (encode i).toNat = 2 ^ 8 * i.operandNumber + (opcode i).toNat := by
  rw [encode, BitVec.toNat_or, toNat_operandBits hi, Nat.or_comm,
    ← Nat.two_pow_add_eq_or_of_lt (toNat_opcode_lt i)]

/-! The decoder (R96, R98). -/

/-- The decoder tries the rows one after the other, and where none selects the value it answers illegal. -/
theorem answerFits_decode (v : Word) : AnswerFits v (decode v) := by
  unfold decode
  repeat refine iteInduction (motive := AnswerFits v) (fun hselects => .command hselects rfl) fun hnot => ?_
  refine .illegal fun i => ?_
  cases i <;> assumption

theorem selects_of_decode_eq_command (h : decode v = .command i) : i.row.selects v = true ∧ i.readFrom v = i := by
  cases (h ▸ answerFits_decode v : AnswerFits v (.command i)) with
  | command hselects hread => exact ⟨hselects, hread⟩

theorem not_selects_of_decode_eq_illegal {why : Illegal} (h : decode v = .illegal why) :
    ∀ i : Instr, ¬ i.row.selects v = true := by
  cases (h ▸ answerFits_decode v : AnswerFits v (.illegal why)) with
  | illegal hnone => exact hnone

/-- The opcode alone says which operands a command reads. -/
theorem readFrom_eq_of_opcode_eq {j : Instr} (h : opcode i = opcode j) : i.readFrom v = j.readFrom v := by
  cases i <;> cases j <;> simp [opcode] at h <;> rfl

/-- The row that selects a value says what it decodes to: no row with another opcode selects the value too. -/
theorem decode_of_selects (h : i.row.selects v = true) : decode v = .command (i.readFrom v) := by
  cases hv : decode v with
  | illegal why => exact absurd h (not_selects_of_decode_eq_illegal hv i)
  | command j =>
    obtain ⟨hj, hread⟩ := selects_of_decode_eq_command hv
    have hopcode : opcode j = opcode i := by
      rw [← j.row_pattern, ← i.row_pattern]
      exact OpRow.pattern_eq_of_both_select j.row_mem i.row_mem hj h
    rw [← readFrom_eq_of_opcode_eq hopcode, hread]

theorem decode_eq_command_iff : decode v = .command i ↔ i.row.selects v = true ∧ i.readFrom v = i := by
  refine ⟨selects_of_decode_eq_command, fun ⟨hselects, hread⟩ => ?_⟩
  rw [decode_of_selects hselects, hread]

theorem decode_eq_illegal_iff : (∃ why, decode v = .illegal why) ↔ ∀ i : Instr, ¬ i.row.selects v = true := by
  refine ⟨fun ⟨why, hwhy⟩ => not_selects_of_decode_eq_illegal hwhy, fun h => ?_⟩
  cases hv : decode v with
  | illegal why => exact ⟨why, rfl⟩
  | command i => exact absurd (selects_of_decode_eq_command hv).1 (h i)

end CommandWords

/-- Settles O2: the encoding has the opcode below bit 8 and the operand number above it, which fits its field. -/
theorem decodeOfEncodeIsTheCommand : Obligations.DecodeOfEncodeIsTheCommand := by
  intro i hi
  have hword := toNat_encode hi
  have hopcode := toNat_opcode_lt i
  have hnumber : (encode i).toNat / 2 ^ 8 = i.operandNumber := by omega
  refine decode_eq_command_iff.2 ⟨row_selects_iff.2 ⟨by omega, ?_⟩, readFrom_eq_self hi hnumber⟩
  rw [Nat.pow_add, ← Nat.div_div_eq_div_mul, hnumber, Nat.div_eq_of_lt (operandNumber_lt hi)]

/-- Settles O3: a selected value is its opcode and its operand number, and nothing stands above. -/
theorem encodeOfDecodeIsTheValue : Obligations.EncodeOfDecodeIsTheValue := by
  intro v i h
  obtain ⟨hselects, hread⟩ := decode_eq_command_iff.1 h
  obtain ⟨hopcode, hhigh⟩ := row_selects_iff.1 hselects
  have hwf : i.wellFormed = true := hread ▸ wellFormed_readFrom i v
  have hnumber : i.operandNumber = v.toNat / 2 ^ 8 := by
    have hread' := operandNumber_readFrom i v
    rw [Nat.pow_add, ← Nat.div_div_eq_div_mul] at hhigh
    rwa [hread, Nat.mod_eq_of_lt (Nat.lt_of_div_eq_zero (Nat.two_pow_pos _) hhigh)] at hread'
  refine ⟨BitVec.eq_of_toNat_eq ?_, hwf⟩
  rw [toNat_encode hwf, hnumber, ← hopcode, Nat.div_add_mod]

/-- Settles O4, command by command: its row selects the value, and its operands are the value's fields. -/
theorem opcodeMapSelectsCommands : Obligations.OpcodeMapSelectsCommands := by
  intro v
  have hplain : ∀ i : Instr, i.readFrom v = i → (decode v = .command i ↔ v &&& i.row.mask = i.row.pattern) :=
    fun i hi => by rw [decode_eq_command_iff, OpRow.selects_iff, and_iff_left hi]
  refine ⟨hplain .validate rfl, hplain .init rfl, hplain .gentable rfl, fun b => ?_, fun off len => ?_,
    hplain .finalize rfl, fun n => ?_⟩
  all_goals rw [decode_eq_command_iff, OpRow.selects_iff]
  · rw [Instr.readFrom, Instr.update.injEq, ← toNat_byteField, BitVec.toNat_inj, eq_comm (a := b)]
    rfl
  · rw [Instr.readFrom, Instr.compute.injEq, eq_comm (b := off), eq_comm (b := len), offField, lenField,
      field_eq_div_mod, field_eq_div_mod]
    rfl
  · rw [Instr.readFrom, Instr.reflect.injEq, eq_comm (b := n), countField, field_eq_div_mod]
    rfl

/-- Nothing stands from bit `lo` up exactly when nothing stands above the field there and the field is zero. -/
theorem div_eq_zero_iff_field (n lo size : Nat) :
    n / 2 ^ lo = 0 ↔ n / 2 ^ (lo + size) = 0 ∧ n / 2 ^ lo % 2 ^ size = 0 := by
  rw [Nat.pow_add, ← Nat.div_div_eq_div_mul]
  refine ⟨fun h => by rw [h, Nat.zero_div, Nat.zero_mod]; exact ⟨rfl, rfl⟩, fun ⟨habove, hfield⟩ => ?_⟩
  rwa [Nat.mod_eq_of_lt (Nat.lt_of_div_eq_zero (Nat.two_pow_pos size) habove)] at hfield

theorem opcode_cases {op : Nat} (hzero : op ≠ 0) (hlarge : ¬ 8 ≤ op) :
    op = 1 ∨ op = 2 ∨ op = 3 ∨ op = 4 ∨ op = 5 ∨ op = 6 ∨ op = 7 := by
  omega

theorem low_byte_of_nibbles {n op : Nat} (hlow : n % 16 = op) (hhigh : n / 2 ^ 4 % 2 ^ 4 = 0) : n % 2 ^ 8 = op := by
  omega

/-- Settles O6: an illegal value is one that no row selects, which the rows' numbers say bit by bit (R98). -/
theorem illegalCommandsReportOnly : Obligations.IllegalCommandsReportOnly := by
  refine ⟨fun v => ?_, fun v why s h => Machine.dispatch_of_illegal h, .reservedOpcode, rfl⟩
  rw [decode_eq_illegal_iff]
  simp only [row_selects_iff]
  constructor
  · intro h
    by_contra hlegal
    simp only [not_or, not_and, Decidable.not_not] at hlegal
    obtain ⟨hword, hzero, hlarge, hnibble, hplain, hupdate, hreflect⟩ := hlegal
    have hlow {op : Nat} (hop : v.toNat % 16 = op) : v.toNat % 2 ^ 8 = op := low_byte_of_nibbles hop hnibble
    have hnone (hop) := (div_eq_zero_iff_field v.toNat 8 24).2 ⟨hword, hplain hop⟩
    rcases opcode_cases hzero hlarge with hop | hop | hop | hop | hop | hop | hop
    · exact h .validate ⟨hlow hop, hnone (.inl hop)⟩
    · exact h .init ⟨hlow hop, hnone (.inr (.inl hop))⟩
    · exact h .gentable ⟨hlow hop, hnone (.inr (.inr (.inl hop)))⟩
    · exact h (.update 0#8) ⟨hlow hop, (div_eq_zero_iff_field v.toNat 16 16).2 ⟨hword, hupdate hop⟩⟩
    · exact h (.compute 0 0) ⟨hlow hop, hword⟩
    · exact h .finalize ⟨hlow hop, hnone (.inr (.inr (.inr hop)))⟩
    · exact h (.reflect 0) ⟨hlow hop, (div_eq_zero_iff_field v.toNat 15 17).2 ⟨hword, hreflect hop⟩⟩
  · intro h i
    cases i <;> simp only [opcode, Instr.operandSize, BitVec.toNat_ofNat] <;> omega

/-- Settles O1: the decoder runs on each word. -/
theorem sampleWordsDecode : Obligations.SampleWordsDecode := by
  unfold Obligations.SampleWordsDecode
  decide

end Sys2Proof

/-! SUPPORT. Proofs of the statements about the parameter checker: its verdict as numbers, what VALIDATE and REFLECT write
and keep, and the commands that an invalid context stops. -/

namespace Sys2Proof.Machine

/- One theorem is elaborated at a time here too, for the memory limit named above. -/
set_option deprecated.oldSectionVars true

section Verdict

variable {s : State}

/-- The stored context passes the predicate exactly when it meets the clauses of R120 as numbers: WIDTH is at most 64
there, where the derived constants are the numbers the clauses name. -/
theorem valid_iff_consistent (s : State) :
    s.valid = true ↔ ConsistentParameters s.width.toNat s.poly s.msb s.mask := by
  rw [valid_iff, validCandidate_iff_consistent]
  refine and_congr_right fun ⟨_, _, _, hw, _⟩ => ?_
  rw [← toNat_deriveMsb hw, ← toNat_deriveMask hw, BitVec.toNat_inj, BitVec.toNat_inj]

theorem valid_eq_decide_consistent (s : State) :
    s.valid = decide (ConsistentParameters s.width.toNat s.poly s.msb s.mask) :=
  Bool.eq_iff_iff.2 ((valid_iff_consistent s).trans decide_eq_true_iff.symm)

theorem valid_eq_false_of_not_consistent (h : ¬ ConsistentParameters s.width.toNat s.poly s.msb s.mask) :
    s.valid = false := by
  rwa [← valid_iff_consistent, Bool.not_eq_true] at h

theorem validCandidate_eq_false_of_not_consistent {width : BitVec 8} {poly : Word}
    (h : ¬ ConsistentCandidate width.toNat poly) : validCandidate width poly = false := by
  rwa [← validCandidate_iff_consistent, Bool.not_eq_true] at h

end Verdict

section Raising

variable {s : State}

theorem execInit_of_invalid_candidate (h : validCandidate s.width s.poly = false) :
    exec .init s = .next (raise .invalidParameters s) := by
  rcases execInit_cases s with ⟨-, hraise⟩ | ⟨hc, -⟩
  · exact hraise
  · simp [h] at hc

/-- The four commands that check the stored context raise where it is invalid (R122). -/
theorem exec_raises_of_invalid {i : Instr} (hv : s.valid = false)
    (hi : i = .gentable ∨ (∃ b, i = .update b) ∨ (∃ off len, i = .compute off len) ∨ i = .finalize) :
    exec i s = .next (raise .invalidParameters s) := by
  rcases hi with rfl | ⟨b, rfl⟩ | ⟨off, len, rfl⟩ | rfl
  · simp [exec, execGentable, hv]
  · exact execUpdate_of_not_ready b (ready_eq_false_of_valid hv)
  · exact execCompute_of_not_ready off len (ready_eq_false_of_valid hv)
  · simp [exec, execFinalize, hv]

end Raising

section Frame

variable (s : State)

/-! A state keeps what it holds. A named update of `s` that does not touch these fields is `s` itself as far as the frame
predicates look, so the same lemmas are its frame. -/

theorem commandKeeps_refl : CommandKeeps s s := ⟨rfl, rfl, rfl, rfl, fun _ => rfl, rfl, rfl, rfl, rfl, rfl, rfl, rfl⟩

theorem contextKept_refl : ContextKept s s := ⟨rfl, rfl, rfl, rfl⟩

theorem lutKept_refl : LutKept s s := fun _ => rfl

end Frame

/-- Settles O7: the clauses on WIDTH and POLY are the candidate check, and the derived constants are their numbers. -/
theorem validityIsTheSevenClauses : Obligations.ValidityIsTheSevenClauses := valid_iff_consistent

/-- Settles O8: VALIDATE writes the predicate's value, which is the verdict of the seven clauses. -/
theorem validateWritesTheVerdict : Obligations.ValidateWritesTheVerdict := by
  intro s
  rw [← valid_eq_decide_consistent]
  rfl

/-- Settles O9: the commands raise where the predicate is false, and VALIDATE and REFLECT complete from every state. -/
theorem invalidContextStopsWidthDependentCommands : Obligations.InvalidContextStopsWidthDependentCommands := by
  refine fun s => ⟨fun hv i hi => ?_, fun hc => ?_, ⟨_, rfl, rfl, rfl⟩, fun n => ⟨_, rfl, rfl, rfl⟩⟩
  · exact exec_raises_of_invalid (valid_eq_false_of_not_consistent hv) hi
  · exact execInit_of_invalid_candidate (validCandidate_eq_false_of_not_consistent hc)

/-- Settles O30: the one state each of the two commands answers differs from `s` in the fields it writes alone. -/
theorem checkerAndReflectFrame : Obligations.CheckerAndReflectFrame := by
  rintro s t i (rfl | ⟨n, rfl⟩) h
  · obtain rfl := execValidate_next h
    exact ⟨commandKeeps_refl s, contextKept_refl s, lutKept_refl s, rfl, rfl, rfl, rfl, fun _ => rfl,
      fun hne => absurd rfl hne⟩
  · obtain rfl := execReflect_next h
    exact ⟨commandKeeps_refl s, contextKept_refl s, lutKept_refl s, rfl, rfl, rfl, rfl, fun hv => (nomatch hv),
      fun _ => rfl⟩

end Sys2Proof.Machine

/-! SUPPORT. Proofs of the statements about INIT and GENTABLE: what each writes and keeps, the table as bit-serial division,
and the run of INIT, UPDATEs and FINALIZE as the bit-serial CRC. -/

namespace Sys2Proof.Machine

/- One theorem is elaborated at a time here too, for the memory limit named above. -/
set_option deprecated.oldSectionVars true

section Setup

variable {s t : State}

theorem execInit_of_valid_candidate (h : validCandidate s.width s.poly = true) :
    exec .init s = .next (complete (buildTable (commitContext s))) := by
  rcases execInit_cases s with ⟨hc, -⟩ | ⟨-, hnext⟩
  · simp [h] at hc
  · exact hnext

/-- The entries a table build writes in `DYNAMIC` (R130, R142). -/
theorem read_buildTable_dynamic (h : s.build = .dynamic) (k : Nat) :
    Memory.read (buildTable s).lut k = (genTable s.width.toNat s.poly)[k]? := by
  rw [buildTable_lut_dynamic h, Memory.read_ofTable]

/-- A table build keeps the ROM of every other variant (R130, R142). -/
theorem lutKept_buildTable (h : s.build ≠ .dynamic) : LutKept s (buildTable s) := by
  cases hb : s.build with
  | dynamic => exact absurd hb h
  | static w p =>
    intro k
    rw [buildTable_lut_static hb]

/-- Everything INIT and GENTABLE can do when they answer next: raise, or build the table, INIT on the context it commits
first (R130, R142). -/
theorem exec_setup_next {i : Instr} (hi : i = .init ∨ i = .gentable) (h : exec i s = .next t) :
    t = raise .invalidParameters s ∨
      (i = .init ∧ validCandidate s.width s.poly = true ∧ t = complete (buildTable (commitContext s))) ∨
      (i = .gentable ∧ s.valid = true ∧ t = complete (buildTable s)) := by
  rcases hi with rfl | rfl <;> simpa using exec_next h

/-- An INIT that completes had a valid candidate and committed it (R130). -/
theorem execInit_completed (h : exec .init s = .next t) (hcause : t.status.cause = .none) :
    validCandidate s.width s.poly = true ∧ t = complete (buildTable (commitContext s)) := by
  rcases exec_setup_next (.inl rfl) h with rfl | ⟨-, hc, ht⟩ | ⟨hi, -, -⟩
  · cases hcause
  · exact ⟨hc, ht⟩
  · cases hi

end Setup

/-- Settles O10: the candidate check is the clauses as numbers, and each outcome is read off the one state it answers. -/
theorem initDerivesSeedsAndBuilds : Obligations.InitDerivesSeedsAndBuilds := by
  refine fun s => ⟨fun hc => ?_, fun hc => ?_⟩
  · obtain ⟨-, -, -, hw, -⟩ := id hc
    have hlut : s.build ≠ .dynamic → LutKept s (complete (buildTable (commitContext s))) :=
      fun hb => lutKept_buildTable (s := commitContext s) hb
    exact ⟨_, execInit_of_valid_candidate ((validCandidate_iff_consistent _ _).2 hc), toNat_deriveMsb hw,
      toNat_deriveMask hw, rfl, rfl, rfl, fun hb k _ => read_buildTable_dynamic (s := commitContext s) hb k, hlut, rfl, rfl,
      commandKeeps_refl s⟩
  · exact execInit_of_invalid_candidate (validCandidate_eq_false_of_not_consistent hc)

/-- Settles O28: the raise keeps all but STATUS, and a build that completes writes no more than its rule lists. -/
theorem setupCommandsFrame : Obligations.SetupCommandsFrame := by
  intro s t i hi h
  rcases exec_setup_next hi h with rfl | ⟨rfl, -, rfl⟩ | ⟨rfl, -, rfl⟩
  · exact ⟨commandKeeps_refl s, rfl, rfl, rfl, fun _ => ⟨contextKept_refl s, rfl⟩,
      fun _ => ⟨contextKept_refl s, rfl, lutKept_refl s, rfl⟩, fun hcause => nomatch hcause⟩
  · exact ⟨commandKeeps_refl s, rfl, rfl, rfl, fun hg => Instr.noConfusion hg, fun hcause => absurd rfl hcause,
      fun _ => rfl⟩
  · exact ⟨commandKeeps_refl s, rfl, rfl, rfl, fun _ => ⟨contextKept_refl s, rfl⟩, fun hcause => absurd rfl hcause,
      fun _ => rfl⟩

section AfterInit

variable {s t : State}

/-- After an INIT that completes, the commands that read the LUT are ready (R132). -/
theorem ready_of_execInit (h : exec .init s = .next t) (hcause : t.status.cause = .none) : t.ready = true := by
  obtain ⟨hc, rfl⟩ := execInit_completed h hcause
  exact (ready_iff _).2 ⟨hc, rfl⟩

/-- On a valid context FINALIZE completes with the finalized CRC (R170). -/
theorem execFinalize_of_valid (h : s.valid = true) :
    exec .finalize s = .next (complete { s with crc := finalValue s.refout s.width.toNat s.crc s.final s.mask }) := by
  rcases execFinalize_cases s with ⟨hv, -⟩ | ⟨-, hnext⟩
  · simp [h] at hv
  · exact hnext

/-- With the table built, UPDATE completes: the entry it reads is written (R40, R160). -/
theorem execUpdate_completes (hs : Inv s) (hready : s.ready = true) (b : Byte) :
    ∃ e, Memory.read s.lut (s.lutIndexOf b) = some e ∧
      exec (.update b) s = .next (complete { s with crc := mixEntry s.crc s.mask e }) := by
  rcases execUpdate_cases b s with ⟨hn, -⟩ | ⟨-, hnext⟩ | ⟨-, hnone, -⟩
  · simp [hready] at hn
  · exact hnext
  · exact absurd hnone ((hs.lutWritten ((ready_iff s).1 hready).2).read_lutIndexOf_ne_none b)

/-- With the table built and its bytes written, COMPUTE completes: there is nothing it could stop on (R180). -/
theorem execCompute_completes (hs : Inv s) (hready : s.ready = true) {off len : Nat} (hbytes : BufferWritten s off len) :
    ∃ u, exec (.compute off len) s = .next u ∧ u.status.cause = .none := by
  rcases execCompute_cases off len s with ⟨hn, -⟩ | ⟨-, c, -, hnext⟩ | ⟨-, f, -, hfault⟩
  · simp [hready] at hn
  · exact ⟨_, hnext, rfl⟩
  · obtain ⟨-, off', len', hi, hnot⟩ := (commandsStopOnlyOnUnwrittenBytes s (.compute off len) hs).2 f hfault
    cases hi
    exact absurd hbytes hnot

end AfterInit

/-- Settles O11: INIT keeps the invariant and leaves the engine ready, so the LUT is written and no command raises. -/
theorem successfulInitEnablesTheCommands : Obligations.SuccessfulInitEnablesTheCommands := by
  intro s t hs h hcause
  have ht : Inv t := exec_inv hs h
  have hready : t.ready = true := ready_of_execInit h hcause
  obtain ⟨hvalid, htblv⟩ := (ready_iff t).1 hready
  refine ⟨hvalid, htblv, fun b => ?_, fun off len hbytes => execCompute_completes ht hready hbytes,
    ⟨_, execFinalize_of_valid hvalid, rfl⟩⟩
  obtain ⟨e, -, hnext⟩ := execUpdate_completes ht hready b
  exact ⟨_, hnext, rfl⟩

section Division

variable {w : Nat} {p : Word}

/-- XOR under a mask, for words; the library states it for numbers. -/
theorem xor_and_distrib_right (x y z : Word) : (x ^^^ y) &&& z = (x &&& z) ^^^ (y &&& z) :=
  BitVec.eq_of_toNat_eq (by simp only [BitVec.toNat_and, BitVec.toNat_xor, Nat.and_xor_distrib_right])

theorem getLsbD_deriveMask (hw : w ≤ 64) (i : Nat) : (deriveMask w).getLsbD i = decide (i < w) := by
  rw [← BitVec.testBit_toNat, toNat_deriveMask hw, Nat.testBit_two_pow_sub_one]

theorem toNat_and_deriveMask (hw : w ≤ 64) (r : Word) : (r &&& deriveMask w).toNat = r.toNat % 2 ^ w := by
  rw [BitVec.toNat_and, toNat_deriveMask hw, Nat.and_two_pow_sub_one_eq_mod]

/-- The test of a division step looks at the bit `w - 1` (R141). -/
theorem and_deriveMsb_ne_zero (h1 : 1 ≤ w) (hw : w ≤ 64) (r : Word) :
    r &&& deriveMsb w ≠ 0#64 ↔ r.getLsbD (w - 1) = true := by
  have hmsb : deriveMsb w = BitVec.twoPow 64 (w - 1) := (BitVec.twoPow_eq 64 (w - 1)).symm
  have hne : BitVec.twoPow 64 (w - 1) ≠ 0#64 := fun h => by
    have := congrArg (fun v => v.getLsbD (w - 1)) h
    simp [show w - 1 < 64 by omega] at this
  rw [hmsb, BitVec.and_twoPow]
  cases r.getLsbD (w - 1) <;> simp [hne]

/-- One division step in R141's words: the polynomial is XORed in when the bit at `w - 1` is set. -/
theorem divStep_eq (h1 : 1 ≤ w) (hw : w ≤ 64) (r p : Word) :
    divStep r w p = ((r <<< 1) ^^^ (if r.getLsbD (w - 1) then p else 0#64)) &&& deriveMask w := by
  simp only [divStep, and_deriveMsb_ne_zero h1 hw]

/-- A division step is linear over XOR. -/
theorem divStep_xor (h1 : 1 ≤ w) (hw : w ≤ 64) (x y p : Word) :
    divStep (x ^^^ y) w p = divStep x w p ^^^ divStep y w p := by
  have hpoly : (if (x ^^^ y).getLsbD (w - 1) then p else 0#64) =
      (if x.getLsbD (w - 1) then p else 0#64) ^^^ (if y.getLsbD (w - 1) then p else 0#64) := by
    rw [BitVec.getLsbD_xor]
    cases x.getLsbD (w - 1) <;> cases y.getLsbD (w - 1) <;> simp
  simp only [divStep_eq h1 hw, hpoly, BitVec.shiftLeft_xor_distrib, xor_and_distrib_right]
  ac_rfl

theorem divSteps_xor (h1 : 1 ≤ w) (hw : w ≤ 64) (n : Nat) (x y p : Word) :
    divSteps n (x ^^^ y) w p = divSteps n x w p ^^^ divSteps n y w p := by
  induction n generalizing x y with
  | zero => rfl
  | succ n ih => rw [divSteps_succ, divStep_xor h1 hw, ih, ← divSteps_succ, ← divSteps_succ]

theorem divSteps_add (m n : Nat) (r : Word) : divSteps (m + n) r w p = divSteps n (divSteps m r w p) w p := by
  induction n with
  | zero => rfl
  | succ n ih => rw [← Nat.add_assoc, divSteps_succ', ih, divSteps_succ']

/-- A division step does not look at the bits from `w` up. -/
theorem divStep_and_deriveMask (h1 : 1 ≤ w) (hw : w ≤ 64) (r p : Word) :
    divStep (r &&& deriveMask w) w p = divStep r w p := by
  have hmsb : (r &&& deriveMask w).getLsbD (w - 1) = r.getLsbD (w - 1) := by
    rw [BitVec.getLsbD_and, getLsbD_deriveMask hw]
    simp [show w - 1 < w by omega]
  have hshift : ((r &&& deriveMask w) <<< 1) &&& deriveMask w = (r <<< 1) &&& deriveMask w := by
    refine BitVec.eq_of_getLsbD_eq fun i hi => ?_
    simp only [BitVec.getLsbD_and, BitVec.getLsbD_shiftLeft, getLsbD_deriveMask hw]
    by_cases hiw : i < w
    · simp [show i - 1 < w by omega]
    · simp [hiw]
  rw [divStep_eq h1 hw, divStep_eq h1 hw, hmsb, xor_and_distrib_right, hshift, ← xor_and_distrib_right]

theorem divSteps_and_deriveMask (h1 : 1 ≤ w) (hw : w ≤ 64) (n : Nat) (r p : Word) :
    divSteps (n + 1) (r &&& deriveMask w) w p = divSteps (n + 1) r w p := by
  rw [divSteps_succ, divStep_and_deriveMask h1 hw, divSteps_succ]

/-- A shift that loses no bit multiplies. -/
theorem toNat_shiftLeft_of_lt {n : Nat} {r : Word} (hw : w ≤ 64) (h : r.toNat * 2 ^ n < 2 ^ w) :
    (r <<< n).toNat = r.toNat * 2 ^ n := by
  have hpow : 2 ^ w ≤ 2 ^ 64 := Nat.pow_le_pow_right (by decide) hw
  rw [BitVec.toNat_shiftLeft, Nat.shiftLeft_eq, Nat.mod_eq_of_lt (by omega)]

/-- While the bits shifted out are 0, a division step only shifts. -/
theorem divStep_of_lt (h1 : 1 ≤ w) (hw : w ≤ 64) {r : Word} (h : r.toNat * 2 < 2 ^ w) (p : Word) :
    divStep r w p = r <<< 1 := by
  have hpow : 2 ^ w = 2 ^ (w - 1) * 2 := by rw [← Nat.pow_succ, Nat.succ_eq_add_one, Nat.sub_add_cancel h1]
  have hbit : r.getLsbD (w - 1) = false := Nat.testBit_lt_two_pow (by omega)
  have hmask : (r <<< 1) &&& deriveMask w = r <<< 1 := by
    refine BitVec.eq_of_toNat_eq ?_
    rw [toNat_and_deriveMask hw, toNat_shiftLeft_of_lt hw (n := 1) h, Nat.mod_eq_of_lt (by omega)]
  simp [divStep_eq h1 hw, hbit, hmask]

theorem divSteps_of_lt (h1 : 1 ≤ w) (hw : w ≤ 64) {n : Nat} {r : Word} (h : r.toNat * 2 ^ n < 2 ^ w) (p : Word) :
    divSteps n r w p = r <<< n := by
  induction n generalizing r with
  | zero => simp
  | succ n ih =>
    have hsplit : r.toNat * 2 ^ (n + 1) = r.toNat * 2 * 2 ^ n := by ring
    have hone : r.toNat * 2 < 2 ^ w :=
      lt_of_le_of_lt (Nat.le_mul_of_pos_right _ (by positivity)) (hsplit ▸ h)
    have hrest : (r <<< 1).toNat * 2 ^ n < 2 ^ w := by
      rw [toNat_shiftLeft_of_lt hw (n := 1) hone]
      exact hsplit ▸ h
    rw [divSteps_succ, divStep_of_lt h1 hw hone, ih hrest, ← BitVec.shiftLeft_add, Nat.add_comm]

end Division

section Table

/-- The bit-serial division of a byte value: its eight bits shifted to the top of `w` bits, then eight steps (R141). -/
def byteDivision (w : Nat) (p : Word) (n : Nat) : Word := divSteps 8 (BitVec.ofNat 64 n <<< (w - 8)) w p

variable {w : Nat} {p : Word}

theorem byteDivision_xor (h1 : 1 ≤ w) (hw : w ≤ 64) (m n : Nat) :
    byteDivision w p (m ^^^ n) = byteDivision w p m ^^^ byteDivision w p n := by
  rw [byteDivision, BitVec.ofNat_xor, BitVec.shiftLeft_xor_distrib, divSteps_xor h1 hw, byteDivision, byteDivision]

/-- Of the division of `2^k` the first `7 - k` steps shift its bit to `w - 1`; the other `k + 1` are the passes' (R140). -/
theorem byteDivision_two_pow (h8 : 8 ≤ w) (hw : w ≤ 64) {k : Nat} (hk : k < 8) :
    byteDivision w p (2 ^ k) = divSteps (k + 1) (deriveMsb w) w p := by
  have hbyte : BitVec.ofNat 64 (2 ^ k) = 1#64 <<< k := by
    rw [← BitVec.twoPow_eq]
    exact BitVec.eq_of_toNat_eq (BitVec.toNat_twoPow 64 k).symm
  have hsmall : (1#64 <<< (k + (w - 8))).toNat * 2 ^ (7 - k) < 2 ^ w := by
    rw [← BitVec.twoPow_eq, BitVec.toNat_twoPow_of_lt (by omega), ← Nat.pow_add]
    exact Nat.pow_lt_pow_right (by decide) (by omega)
  calc byteDivision w p (2 ^ k)
      = divSteps (7 - k + (k + 1)) (1#64 <<< (k + (w - 8))) w p := by
        rw [byteDivision, hbyte, ← BitVec.shiftLeft_add, show 7 - k + (k + 1) = 8 by omega]
    _ = divSteps (k + 1) (1#64 <<< (k + (w - 8)) <<< (7 - k)) w p := by
        rw [divSteps_add, divSteps_of_lt (by omega) hw hsmall]
    _ = divSteps (k + 1) (deriveMsb w) w p := by
        rw [← BitVec.shiftLeft_add, deriveMsb, show k + (w - 8) + (7 - k) = w - 1 by omega]

/-- Below `2^k`, setting bit `k` is adding `2^k`: R140's index `i XOR j` is `i + j`. -/
theorem two_pow_xor_of_lt {j k : Nat} (h : j < 2 ^ k) : 2 ^ k ^^^ j = 2 ^ k + j := by
  rw [← Nat.div_add_mod (2 ^ k ^^^ j) (2 ^ k), Nat.xor_div_two_pow, Nat.xor_mod_two_pow, Nat.div_eq_of_lt h,
    Nat.mod_eq_of_lt h]
  simp

/-- The passes of R140 extend the divisions of the first `2^k` bytes to those of the first `2^(k+n)`. -/
theorem tablePasses_eq_map (h8 : 8 ≤ w) (hw : w ≤ 64) {n k : Nat} (hk : k + n ≤ 8) :
    tablePasses w p n (divSteps k (deriveMsb w) w p) ((List.range (2 ^ k)).map (byteDivision w p)) =
      (List.range (2 ^ (k + n))).map (byteDivision w p) := by
  induction n generalizing k with
  | zero => rfl
  | succ n ih =>
    have hcrc : divStep (divSteps k (deriveMsb w) w p) w p = byteDivision w p (2 ^ k) := by
      rw [← divSteps_succ', byteDivision_two_pow h8 hw (by omega)]
    have hentry : ∀ j ∈ List.range (2 ^ k),
        byteDivision w p (2 ^ k) ^^^ byteDivision w p j = byteDivision w p (2 ^ k + j) :=
      fun j hj => by rw [← byteDivision_xor (by omega) hw, two_pow_xor_of_lt (List.mem_range.1 hj)]
    have htable : (List.range (2 ^ k)).map (byteDivision w p) ++
        ((List.range (2 ^ k)).map (byteDivision w p)).map (fun e => byteDivision w p (2 ^ k) ^^^ e) =
          (List.range (2 ^ (k + 1))).map (byteDivision w p) := by
      rw [Nat.pow_succ, Nat.mul_two, List.range_add, List.map_append, List.map_map, List.map_map]
      exact congrArg _ (List.map_congr_left hentry)
    have hnext := ih (k := k + 1) (by omega)
    rw [divSteps_succ', hcrc] at hnext
    rw [tablePasses, hcrc, htable, hnext, Nat.add_right_comm, Nat.add_assoc]

/-- The generated table is the bit-serial divisions of the bytes in order (R141). -/
theorem genTable_eq_map (h8 : 8 ≤ w) (hw : w ≤ 64) : genTable w p = (List.range 256).map (byteDivision w p) := by
  have hzero : byteDivision w p 0 = 0#64 := by
    simpa using byteDivision_xor (p := p) (by omega) hw 0 0
  have h := tablePasses_eq_map (p := p) h8 hw (n := 8) (k := 0) (by decide)
  simpa [genTable, hzero] using h

theorem genTable_getElem? (h8 : 8 ≤ w) (hw : w ≤ 64) {k : Nat} (hk : k < 256) :
    (genTable w p)[k]? = some (byteDivision w p k) := by
  simp [genTable_eq_map h8 hw, hk]

end Table

section Serial

variable {w : Nat} {p : Word}

/-- The low `w` bits of CRC with the byte mixed in: the selected index on top, the low `w - 8` bits of CRC below it. -/
theorem mixedByte_split (h8 : 8 ≤ w) (hw : w ≤ 64) (crc d : Word) :
    (crc ^^^ (d <<< (w - 8))) &&& deriveMask w =
      (BitVec.ofNat 64 (lutIndex w crc d) <<< (w - 8)) ^^^ (crc &&& deriveMask (w - 8)) := by
  have hw' : w - 8 ≤ 64 := by omega
  refine BitVec.eq_of_getLsbD_eq fun i hi => ?_
  simp only [lutIndex, BitVec.getLsbD_and, BitVec.getLsbD_xor, BitVec.getLsbD_shiftLeft, BitVec.getLsbD_ofNat,
    BitVec.testBit_toNat, BitVec.getLsbD_extractLsb', BitVec.getLsbD_ushiftRight, getLsbD_deriveMask hw,
    getLsbD_deriveMask hw']
  by_cases hlow : i < w - 8
  · simp [hlow, show i < w by omega]
  by_cases htop : i < w
  · have hbit : w - 8 + (i - (w - 8)) = i := by omega
    simp [hi, hlow, htop, hbit, show i - (w - 8) < 8 by omega, show i - (w - 8) < 64 by omega, Bool.xor_comm]
  · simp [hlow, htop, show ¬ i - (w - 8) < 8 by omega]

/-- Shifting the low `w - 8` bits is masking the shifted CRC to `w` bits (R160 step 4). -/
theorem and_deriveMask_shiftLeft (h8 : 8 ≤ w) (hw : w ≤ 64) (crc : Word) :
    (crc &&& deriveMask (w - 8)) <<< 8 = (crc <<< 8) &&& deriveMask w := by
  have hw' : w - 8 ≤ 64 := by omega
  refine BitVec.eq_of_getLsbD_eq fun i hi => ?_
  simp only [BitVec.getLsbD_and, BitVec.getLsbD_shiftLeft, getLsbD_deriveMask hw, getLsbD_deriveMask hw']
  by_cases h : i < 8
  · simp [h]
  · simp [h, show i - 8 < w - 8 ↔ i < w by omega, Bool.and_assoc]

/-- Step 4 of R160 with the divided index is eight division steps on CRC with the byte mixed in, for every CRC (R162). -/
theorem mixEntry_byteDivision (h8 : 8 ≤ w) (hw : w ≤ 64) (crc d : Word) :
    mixEntry crc (deriveMask w) (byteDivision w p (lutIndex w crc d)) = divSteps 8 (crc ^^^ (d <<< (w - 8))) w p := by
  have h1 : 1 ≤ w := by omega
  have hlow : (crc &&& deriveMask (w - 8)).toNat * 2 ^ 8 < 2 ^ w := by
    rw [toNat_and_deriveMask (by omega), ← Nat.sub_add_cancel h8, Nat.add_sub_cancel, Nat.pow_add]
    exact Nat.mul_lt_mul_of_pos_right (Nat.mod_lt _ (by positivity)) (by decide)
  symm
  calc divSteps 8 (crc ^^^ (d <<< (w - 8))) w p
      = divSteps 8 ((crc ^^^ (d <<< (w - 8))) &&& deriveMask w) w p := (divSteps_and_deriveMask h1 hw _ _ _).symm
    _ = byteDivision w p (lutIndex w crc d) ^^^ divSteps 8 (crc &&& deriveMask (w - 8)) w p := by
        rw [mixedByte_split h8 hw, divSteps_xor h1 hw, byteDivision]
    _ = byteDivision w p (lutIndex w crc d) ^^^ ((crc <<< 8) &&& deriveMask w) := by
        rw [divSteps_of_lt h1 hw hlow, and_deriveMask_shiftLeft h8 hw]
    _ = mixEntry crc (deriveMask w) (byteDivision w p (lutIndex w crc d)) := BitVec.xor_comm _ _

end Serial

section Engine

variable {s t : State}

/-- Every width a valid context allows is one of 8, 16, ..., 64 (R120). -/
theorem width_bounds_of_valid (h : s.valid = true) : 8 ≤ s.width.toNat ∧ s.width.toNat ≤ 64 := by
  obtain ⟨hc, -, -⟩ := (valid_iff s).1 h
  obtain ⟨-, h0, h8, hw, -⟩ := (validCandidate_iff_consistent _ _).1 hc
  omega

/-- With the table built, UPDATE is one byte of the bit-serial LFSR (R162). -/
theorem execUpdate_serial (hs : Inv s) (hready : s.ready = true) (b : Byte) :
    exec (.update b) s =
      .next (complete { s with crc := serialUpdate s.width.toNat s.poly s.refin s.crc b }) := by
  obtain ⟨hvalid, htblv⟩ := (ready_iff s).1 hready
  obtain ⟨h8, hw⟩ := width_bounds_of_valid hvalid
  obtain ⟨-, -, hmask⟩ := (valid_iff s).1 hvalid
  obtain ⟨-, hcur, -⟩ := id hs
  obtain ⟨e, he, hnext⟩ := execUpdate_completes hs hready b
  have hentry : e = byteDivision s.width.toNat s.poly (s.lutIndexOf b) := by
    have hindex : s.lutIndexOf b < 256 := lutIndex_lt _ _ _
    rw [(hcur htblv).2 _ hindex, genTable_getElem? h8 hw hindex] at he
    exact (Option.some.inj he).symm
  rw [hnext, hmask, hentry, State.lutIndexOf, mixEntry_byteDivision h8 hw, serialUpdate]

/-- The UPDATEs of a byte sequence are the bit-serial LFSR over it (R161, R162). -/
theorem execAll_updates_serial (hs : Inv s) (hready : s.ready = true) (bytes : List Byte) :
    execAll (bytes.map .update) (complete s) =
      .next (complete { s with crc := bytes.foldl (serialUpdate s.width.toNat s.poly s.refin) s.crc }) := by
  induction bytes generalizing s with
  | nil => rfl
  | cons b bytes ih =>
    rw [List.map_cons, execAll, execUpdate_complete b hready, execUpdate_serial hs hready b]
    exact ih (s := { s with crc := serialUpdate s.width.toNat s.poly s.refin s.crc b }) hs hready

/-- Commands after a run that answers next go on from its state (R70). -/
theorem execAll_append_of_next {is js : List Instr} (h : execAll is s = .next t) :
    execAll (is ++ js) s = execAll js t := by
  induction is generalizing s with
  | nil =>
    cases h
    rfl
  | cons i is ih =>
    simp only [execAll, List.cons_append] at h ⊢
    split at h
    · exact ih h
    · cases h
    · cases h

/-- The UPDATEs of a byte sequence and one FINALIZE (R170, R172). -/
theorem execAll_updates_finalize (hs : Inv s) (hready : s.ready = true) (bytes : List Byte) :
    execAll (bytes.map .update ++ [.finalize]) (complete s) =
      .next (complete { s with
        crc := finalValue s.refout s.width.toNat (bytes.foldl (serialUpdate s.width.toNat s.poly s.refin) s.crc)
          s.final s.mask }) := by
  rw [execAll_append_of_next (execAll_updates_serial hs hready bytes), execAll, execFinalize_of_valid]
  · rfl
  · exact ((ready_iff s).1 hready).1

/-- The truncation of FINAL by INIT does not show: FINALIZE masks to the same bits (R130, R170). -/
theorem finalValue_and_mask (refout : Bool) (w : Nat) (crc final mask : Word) :
    finalValue refout w crc (final &&& mask) mask = finalValue refout w crc final mask := by
  have h : (crc ^^^ (final &&& mask)) &&& mask = (crc ^^^ final) &&& mask := by
    rw [xor_and_distrib_right, xor_and_distrib_right, BitVec.and_assoc, BitVec.and_self]
  simp only [finalValue, h]

end Engine

/-- Settles O27: INIT leaves the engine ready with the seed in CRC, each UPDATE is one byte of the bit-serial LFSR, and
FINALIZE finalizes with the stored context. -/
theorem engineComputesTheBitSerialCrc : Obligations.EngineComputesTheBitSerialCrc := by
  intro s bytes hs hc
  have hinit := execInit_of_valid_candidate ((validCandidate_iff_consistent _ _).2 hc)
  have hinv : Inv (buildTable (commitContext s)) := inv_complete.1 (exec_inv hs hinit)
  have hready : (buildTable (commitContext s)).ready = true := by
    simpa using ready_of_execInit hinit rfl
  rw [execAll, hinit]
  exact ⟨_, execAll_updates_finalize hinv hready bytes, finalValue_and_mask _ _ _ _ _, rfl⟩

end Sys2Proof.Machine

/-! SUPPORT. Proofs of the statements about table generation: GENTABLE's two outcomes, the table as the passes of R140 and
as bit-serial division, and the LUT every build leaves, the ROM of `STATIC` included. -/

namespace Sys2Proof.Machine

/- One theorem is elaborated at a time here too, for the memory limit named above. -/
set_option deprecated.oldSectionVars true

section Build

variable {s t : State}

theorem execGentable_of_valid (h : s.valid = true) : exec .gentable s = .next (complete (buildTable s)) := by
  rcases execGentable_cases s with ⟨hv, -⟩ | ⟨-, hnext⟩
  · simp [h] at hv
  · exact hnext

/-- A build that completes leaves the table of WIDTH and POLY in the LUT, written by the command in `DYNAMIC` and fixed
from reset in `STATIC`: it sets TBLV, and the invariant says what TBLV = 1 means (R40, R130, R142). -/
theorem read_lut_of_setup_completed {i : Instr} (hs : Inv s) (hi : i = .init ∨ i = .gentable)
    (h : exec i s = .next t) (hcause : t.status.cause = .none) {k : Nat} (hk : k < 256) :
    Memory.read t.lut k = (genTable s.width.toNat s.poly)[k]? := by
  obtain ⟨-, hcur, -⟩ := exec_inv hs h
  rcases exec_setup_next hi h with rfl | ⟨-, -, rfl⟩ | ⟨-, -, rfl⟩
  · cases hcause
  · exact (hcur rfl).2 k hk
  · exact (hcur rfl).2 k hk

/-- In `DYNAMIC` a GENTABLE that completes writes the table from every state, reached or not (R142). -/
theorem read_lut_of_execGentable_dynamic (hb : s.build = .dynamic) (h : exec .gentable s = .next t)
    (hcause : t.status.cause = .none) (k : Nat) : Memory.read t.lut k = (genTable s.width.toNat s.poly)[k]? := by
  rcases exec_setup_next (.inr rfl) h with rfl | ⟨hi, -, -⟩ | ⟨-, -, rfl⟩
  · cases hcause
  · cases hi
  · exact read_buildTable_dynamic hb k

end Build

/-- Settles O12: the one state GENTABLE answers on a valid context, read field by field, and the raise on any other. -/
theorem gentableBuildsOrRaises : Obligations.GentableBuildsOrRaises := by
  refine fun s => ⟨fun hv => ?_, fun hv => exec_raises_of_invalid hv (.inl rfl)⟩
  have hlut : s.build ≠ .dynamic → LutKept s (complete (buildTable s)) := lutKept_buildTable
  exact ⟨_, execGentable_of_valid hv, fun hb k _ => read_buildTable_dynamic hb k, hlut, rfl, rfl, contextKept_refl s, rfl,
    commandKeeps_refl s⟩

section Passes

variable {w : Nat} {p : Word}

/-- No pass rewrites an entry that stands: each of them appends (R140). -/
theorem tablePasses_getElem?_of_lt {n j : Nat} {crc : Word} {t : List Word} (hj : j < t.length) :
    (tablePasses w p n crc t)[j]? = t[j]? := by
  induction n generalizing crc t with
  | zero => rfl
  | succ n ih =>
    have hj' : j < (t ++ t.map (fun e => divStep crc w p ^^^ e)).length := hj.trans_le (by simp)
    rw [tablePasses, ih hj', List.getElem?_append_left hj]

/-- Pass `k` mixes the `crc` it has reached into every entry before it, the table doubling in length from that of `t`
(R140). -/
theorem tablePasses_getElem?_add {n k j : Nat} {crc : Word} {t : List Word} (hk : k < n) (hj : j < 2 ^ k * t.length) :
    (tablePasses w p n crc t)[2 ^ k * t.length + j]? =
      ((tablePasses w p n crc t)[j]?).map (fun e => divSteps (k + 1) crc w p ^^^ e) := by
  induction n generalizing k crc t with
  | zero => cases hk
  | succ n ih =>
    rw [tablePasses]
    have hlen : (t ++ t.map (fun e => divStep crc w p ^^^ e)).length = 2 * t.length := by
      simp [Nat.two_mul]
    cases k with
    | zero =>
      rw [Nat.pow_zero, Nat.one_mul] at hj ⊢
      rw [tablePasses_getElem?_of_lt (by omega), tablePasses_getElem?_of_lt (by omega), List.getElem?_append_left hj,
        List.getElem?_append_right (Nat.le_add_right _ _), Nat.add_sub_cancel_left, List.getElem?_map]
      rfl
    | succ k =>
      have hpow : 2 ^ (k + 1) * t.length = 2 ^ k * (t ++ t.map (fun e => divStep crc w p ^^^ e)).length := by
        rw [hlen, Nat.pow_succ, Nat.mul_assoc]
      rw [hpow] at hj ⊢
      rw [ih (Nat.lt_of_succ_lt_succ hk) hj, ← divSteps_succ]

theorem genTable_getElem?_zero : (genTable w p)[0]? = some 0#64 := tablePasses_getElem?_of_lt Nat.one_pos

/-- R140's rule for the entries from `2^k` up to `2^(k+1)`. -/
theorem genTable_getElem?_two_pow_xor {k j : Nat} (hk : k < 8) (hj : j < 2 ^ k) :
    (genTable w p)[2 ^ k ^^^ j]? =
      ((genTable w p)[j]?).map (fun e => divSteps (k + 1) (deriveMsb w) w p ^^^ e) := by
  have h := tablePasses_getElem?_add (w := w) (p := p) (crc := deriveMsb w) (t := [0#64]) hk (by simpa using hj)
  rw [List.length_singleton, Nat.mul_one, ← two_pow_xor_of_lt hj] at h
  exact h

end Passes

section Constants

variable {w : Nat}

theorem deriveMsb_eq_ofNat (hw : w ≤ 64) : deriveMsb w = BitVec.ofNat 64 (2 ^ (w - 1)) := by
  rw [← toNat_deriveMsb hw, BitVec.ofNat_toNat, BitVec.setWidth_eq]

theorem deriveMask_eq_ofNat (hw : w ≤ 64) : deriveMask w = BitVec.ofNat 64 (2 ^ w - 1) := by
  rw [← toNat_deriveMask hw, BitVec.ofNat_toNat, BitVec.setWidth_eq]

/-- One shift-and-reduce in R140's words: the two ways to shift, masked to `w` bits. -/
theorem divStep_eq_shift_reduce (hw : w ≤ 64) (r p : Word) :
    divStep r w p = (if r &&& BitVec.ofNat 64 (2 ^ (w - 1)) ≠ 0#64 then (r <<< 1) ^^^ p else r <<< 1) &&&
      BitVec.ofNat 64 (2 ^ w - 1) := by
  rw [divStep, deriveMsb_eq_ofNat hw, deriveMask_eq_ofNat hw]
  split
  · rfl
  · rw [BitVec.xor_zero]

end Constants

/-- Settles O13: the `crc` of pass `k` is `k` division steps from `msb`, and the passes only append. -/
theorem tableIsBuiltByBitHalving : Obligations.TableIsBuiltByBitHalving := by
  refine fun w p _ hw => ⟨length_genTable w p, genTable_getElem?_zero, fun k => divSteps k (deriveMsb w) w p,
    deriveMsb_eq_ofNat hw, fun k hk => ⟨?_, fun j hj => genTable_getElem?_two_pow_xor hk hj⟩⟩
  exact (divSteps_succ' k (deriveMsb w) w p).trans (divStep_eq_shift_reduce hw _ p)

/-- Settles O14: the table is the bit-serial divisions of the bytes in order, and a width a valid context allows is at
least 8. -/
theorem tableEqualsBitSerialDivision : Obligations.TableEqualsBitSerialDivision := by
  rintro w p ⟨-, hne, hmod, hw, -⟩
  have h8 : 8 ≤ w := by omega
  refine ⟨fun r => ?_, fun b => ?_⟩
  · rw [divStep_eq (by omega) hw, deriveMask_eq_ofNat hw]
  · rw [genTable_getElem? h8 hw b.isLt, byteDivision, BitVec.ofNat_toNat]

/-- Settles O15: either build leaves the table of the WIDTH and POLY the two states share. -/
theorem tableDependsOnWidthAndPolyOnly : Obligations.TableDependsOnWidthAndPolyOnly := by
  intro s₁ s₂ t₁ t₂ i₁ i₂ hs₁ hs₂ hwidth hpoly hi₁ hi₂ h₁ h₂ hc₁ hc₂ k hk
  rw [read_lut_of_setup_completed hs₁ hi₁ h₁ hc₁ hk, read_lut_of_setup_completed hs₂ hi₂ h₂ hc₂ hk, hwidth, hpoly]
  exact ⟨rfl, isSome_genTable _ _ hk⟩

/-- Settles O16: the ROM of the reset and the LUT after GENTABLE are both `gen_table(W_S, P_S)`. -/
theorem romHoldsWhatGentableWrites : Obligations.RomHoldsWhatGentableWrites := by
  rintro w p base s t - hb rfl rfl h hcause k hk
  have hrom : Memory.read (State.resetOf (.static s.width s.poly) base).lut k = (genTable s.width.toNat s.poly)[k]? :=
    Memory.read_ofTable _ k
  rw [hrom, read_lut_of_execGentable_dynamic hb h hcause k]
  exact ⟨rfl, rfl, isSome_genTable _ _ hk⟩

end Sys2Proof.Machine

/-! SUPPORT. Proofs of the statements about bit reflection: the bits of a reflected word, from which reflecting twice and
the reversal-and-shift circuit follow bit by bit. -/

namespace Sys2Proof.Machine

/- One theorem is elaborated at a time here too, for the memory limit named above. -/
set_option deprecated.oldSectionVars true

/-- A bit of the words collected by OR is set where the start or one of the words sets it. -/
theorem getLsbD_foldl_or (f : Nat → Word) (l : List Nat) (r : Word) (j : Nat) :
    (l.foldl (fun r i => r ||| f i) r).getLsbD j = (r.getLsbD j || l.any fun i => (f i).getLsbD j) := by
  induction l generalizing r with
  | nil => simp
  | cons i l ih => rw [List.foldl_cons, ih, BitVec.getLsbD_or, List.any_cons, Bool.or_assoc]

/-- Bit `i` of `v` is the only one that lands on bit `m-1-i`, so bit `j` of the result is bit `m-1-j` of `v` (R150). -/
theorem getLsbD_reflect (v : Word) (n : Nat) {j : Nat} (hj : j < 64) :
    (reflect v n).getLsbD j = (decide (j < min n 64) && v.getLsbD (min n 64 - 1 - j)) := by
  have hbits : (reflect v n).getLsbD j =
      ((0#64).getLsbD j ||
        (List.range (min n 64)).any fun i => (flagBit (v.getLsbD i) (min n 64 - 1 - i)).getLsbD j) :=
    getLsbD_foldl_or (fun i => flagBit (v.getLsbD i) (min n 64 - 1 - i)) _ _ j
  rw [hbits, BitVec.getLsbD_zero, Bool.false_or, Bool.eq_iff_iff]
  simp only [List.any_eq_true, List.mem_range, getLsbD_flagBit _ hj, Bool.and_eq_true, decide_eq_true_eq]
  constructor
  · rintro ⟨i, hi, hbit, rfl⟩
    have hback : min n 64 - 1 - (min n 64 - 1 - i) = i := by omega
    exact ⟨by omega, hback.symm ▸ hbit⟩
  · rintro ⟨hlt, hbit⟩
    exact ⟨_, by omega, hbit, by omega⟩

/-- Within the reflected bits `j ↦ m-1-j` undoes itself, and the bits above are cleared (R152). -/
theorem reflect_reflect (v : Word) (n : Nat) : reflect (reflect v n) n = v &&& deriveMask (min n 64) := by
  refine BitVec.eq_of_getLsbD_eq fun j hj => ?_
  rw [getLsbD_reflect _ _ hj, getLsbD_reflect _ _ (by omega), BitVec.getLsbD_and,
    getLsbD_deriveMask (Nat.min_le_right n 64)]
  by_cases hlt : j < min n 64
  · have hback : min n 64 - 1 - (min n 64 - 1 - j) = j := by omega
    have hin : min n 64 - 1 - j < min n 64 := by omega
    simp [hlt, hback, hin]
  · simp [hlt]

/-- Settles O18: RFL_OUT takes the reflected RFL_IN, whose bits are those of R150. -/
theorem reflectReversesTheLowBits : Obligations.ReflectReversesTheLowBits :=
  fun s n => ⟨reflect s.rflIn n, rfl, fun _ hi => getLsbD_reflect s.rflIn n hi⟩

/-- Settles O19: the mask keeps the value modulo `2 ^ min n 64`, which is the value itself where it fits. -/
theorem reflectionIsAnInvolution : Obligations.ReflectionIsAnInvolution := by
  intro v n
  have htwice : (reflect (reflect v n) n).toNat = v.toNat % 2 ^ min n 64 := by
    rw [reflect_reflect, toNat_and_deriveMask (Nat.min_le_right n 64)]
  refine ⟨htwice, fun _ hn hfits => BitVec.eq_of_toNat_eq ?_⟩
  rw [htwice, Nat.min_eq_left hn, Nat.mod_eq_of_lt hfits]

/-- Settles O20: the shift by `64 - m` moves bit `63 - (m-1-j)` of the reversal to bit `j` and brings zeros in above. -/
theorem reflectionIsReversalAndShift : Obligations.ReflectionIsReversalAndShift := by
  intro v r n hreversed
  refine BitVec.eq_of_getLsbD_eq fun j hj => ?_
  rw [getLsbD_reflect v n hj, BitVec.getLsbD_ushiftRight]
  by_cases hlt : j < min n 64
  · have hsource : 63 - (64 - min n 64 + j) = min n 64 - 1 - j := by omega
    rw [hreversed _ (by omega), hsource, decide_eq_true hlt, Bool.true_and]
  · rw [BitVec.getLsbD_of_ge r _ (by omega), decide_eq_false hlt, Bool.false_and]

end Sys2Proof.Machine

/-! SUPPORT. Proofs of the statements about UPDATE: the entry it mixes in or lacks, its equality with the bit-serial LFSR
for every CRC, and what it leaves unchanged, together with COMPUTE and FINALIZE. -/

namespace Sys2Proof.Machine

/- One theorem is elaborated at a time here too, for the memory limit named above. -/
set_option deprecated.oldSectionVars true

section MixedEntry

variable {s : State} {b : Byte}

/-- The low byte that selects the entry, as a number (R160 step 3). -/
theorem lutIndexOf_eq_mod (s : State) (b : Byte) :
    s.lutIndexOf b = (inputByte s.refin b ^^^ (s.crc >>> (s.width.toNat - 8))).toNat % 256 := by
  rw [State.lutIndexOf, lutIndex, BitVec.extractLsb'_toNat, Nat.shiftRight_zero]

theorem execUpdate_of_entry {e : Word} (h : s.ready = true) (he : Memory.read s.lut (s.lutIndexOf b) = some e) :
    exec (.update b) s = .next (complete { s with crc := mixEntry s.crc s.mask e }) := by
  rw [execUpdate_of_ready b h, absorb, he]
  rfl

theorem execUpdate_of_no_entry (h : s.ready = true) (hnone : Memory.read s.lut (s.lutIndexOf b) = none) :
    exec (.update b) s = .fault .unwrittenLutEntry := by
  rw [execUpdate_of_ready b h, absorb, hnone]
  rfl

end MixedEntry

/-- Settles O21: a context that is not ready makes UPDATE raise, and a ready one is decided by the entry the byte selects. -/
theorem updateMixesOneByte : Obligations.UpdateMixesOneByte := by
  refine fun s b => ⟨fun hnot => execUpdate_of_not_ready b (ready_eq_false_iff.2 hnot), ?_⟩
  rintro hvalid htblv d rfl
  have hready : s.ready = true := (ready_iff s).2 ⟨hvalid, htblv⟩
  exact ⟨fun e he => execUpdate_of_entry hready ((lutIndexOf_eq_mod s b).symm ▸ he),
    fun hnone => execUpdate_of_no_entry hready ((lutIndexOf_eq_mod s b).symm ▸ hnone)⟩

section SerialUpdate

variable {w : Nat}

/-- Eight division steps do not look at the bits of CRC above WIDTH (R162). -/
theorem serialUpdate_and_deriveMask (h1 : 1 ≤ w) (hw : w ≤ 64) (p : Word) (refin : Bool) (crc : Word) (b : Byte) :
    serialUpdate w p refin (crc &&& deriveMask w) b = serialUpdate w p refin crc b := by
  have hmasked (x : Word) : ((crc &&& deriveMask w) ^^^ x) &&& deriveMask w = (crc ^^^ x) &&& deriveMask w := by
    rw [xor_and_distrib_right, BitVec.and_assoc, BitVec.and_self, ← xor_and_distrib_right]
  rw [serialUpdate, ← divSteps_and_deriveMask h1 hw, hmasked, divSteps_and_deriveMask h1 hw, serialUpdate]

/-- The last division step masks to WIDTH bits (R141, R162). -/
theorem serialUpdate_toNat_lt (hw : w ≤ 64) (p : Word) (refin : Bool) (crc : Word) (b : Byte) :
    (serialUpdate w p refin crc b).toNat < 2 ^ w := by
  rw [serialUpdate, divSteps_succ']
  exact divStep_toNat_lt hw _ p

end SerialUpdate

/-- Settles O22: UPDATE writes the bit-serial result for every CRC, which does not look at the bits above MASK and fits
under it. -/
theorem updateEqualsBitSerialLfsr : Obligations.UpdateEqualsBitSerialLfsr := by
  intro s b hs hvalid htblv
  have hready : s.ready = true := (ready_iff s).2 ⟨hvalid, htblv⟩
  obtain ⟨h8, hw⟩ := width_bounds_of_valid hvalid
  obtain ⟨-, -, hmask⟩ := (valid_iff s).1 hvalid
  refine ⟨_, execUpdate_serial hs hready b, ?_, ?_, fun _ => rfl⟩
  · rw [execUpdate_serial (s := { s with crc := s.crc &&& s.mask }) hs hready b, hmask]
    simp only [serialUpdate_and_deriveMask (show 1 ≤ s.width.toNat by omega) hw]
    rfl
  · rw [hmask, toNat_deriveMask hw]
    exact Nat.le_sub_one_of_lt (serialUpdate_toNat_lt hw s.poly s.refin s.crc b)

/-- Everything UPDATE, COMPUTE and FINALIZE can do when they answer next: raise, or write CRC and complete (R160, R170,
R180). -/
theorem exec_lfsr_next {s t : State} {i : Instr}
    (hi : (∃ b, i = .update b) ∨ (∃ off len, i = .compute off len) ∨ i = .finalize) (h : exec i s = .next t) :
    t = raise .invalidParameters s ∨ ∃ c, t = complete { s with crc := c } := by
  rcases exec_next h with ⟨-, -, ht⟩ | ⟨rfl, -⟩ | ⟨rfl, -, -⟩ | ⟨rfl, -, -⟩ | ⟨-, -, hc⟩ | ⟨-, -, ht⟩ | ⟨n, rfl, -⟩
  · exact .inl ht
  · simp at hi
  · simp at hi
  · simp at hi
  · exact .inr hc
  · exact .inr ⟨_, ht⟩
  · simp at hi

/-- Settles O29: a raise writes STATUS alone, and a completion CRC and CAUSE. -/
theorem lfsrCommandsFrame : Obligations.LfsrCommandsFrame := by
  intro s t i hi h
  rcases exec_lfsr_next hi h with rfl | ⟨c, rfl⟩
  · exact ⟨commandKeeps_refl s, contextKept_refl s, lutKept_refl s, rfl, rfl, rfl, rfl, fun hcause => (nomatch hcause),
      fun _ => rfl⟩
  · exact ⟨commandKeeps_refl s, contextKept_refl s, lutKept_refl s, rfl, rfl, rfl, rfl, fun _ => rfl,
      fun hcause => absurd rfl hcause⟩

end Sys2Proof.Machine

/-! SUPPORT. Proof of the statement about FINALIZE. -/

namespace Sys2Proof.Machine

/-- The finalized CRC in R170's words: step 1 XORs FINAL in and masks, step 2 reflects over WIDTH bits. -/
theorem finalValue_eq (refout : Bool) (w : Nat) (crc final mask : Word) :
    finalValue refout w crc final mask =
      if refout then reflect ((crc ^^^ final) &&& mask) w else (crc ^^^ final) &&& mask := rfl

/-- Settles O26: a valid context completes with the finalized CRC whatever TBLV is, and an invalid one raises. -/
theorem finalizeXorsMasksAndReflects : Obligations.FinalizeXorsMasksAndReflects := by
  refine fun s => ⟨fun hvalid => ?_, fun hinvalid => ?_⟩
  · rw [execFinalize_of_valid hvalid, finalValue_eq]
    rfl
  · exact exec_raises_of_invalid hinvalid (.inr (.inr (.inr rfl)))

end Sys2Proof.Machine

/-! SUPPORT. Proofs of the statements about COMPUTE: the loop as a fold over the bytes it reads, where it stops, and how it
goes on from where another COMPUTE ended. -/

namespace Sys2Proof.Machine

/- One theorem is elaborated at a time here too, for the memory limit named above. -/
set_option deprecated.oldSectionVars true

section Loop

variable {s t : State}

/-- With every entry written a byte is mixed in as R160 says, and CRC alone is written. -/
theorem absorb_of_lutWritten (hlut : LutWritten s) (b : Byte) :
    absorb b s = .ok { s with crc := tableUpdate s s.crc b } := by
  rcases absorb_cases b s with ⟨e, he, habs⟩ | ⟨hnone, -⟩
  · have htable : tableUpdate s s.crc b = mixEntry s.crc s.mask e := by
      rw [tableUpdate, ← State.lutIndexOf, he]
      rfl
    rw [habs, htable]
  · exact absurd hnone (hlut.read_lutIndexOf_ne_none b)

/-- The loop over bytes that stand in DBUF mixes them into CRC in order (R180). -/
theorem absorbFrom_of_bytes (hlut : LutWritten s) {off : Nat} {bytes : List Byte}
    (hbytes : ∀ i, i < bytes.length → Memory.read s.dbuf ((off + i) % 4096) = bytes[i]?) :
    absorbFrom (dbufAddresses off bytes.length) s = .ok { s with crc := bytes.foldl (tableUpdate s) s.crc } := by
  induction bytes generalizing off s with
  | nil => rfl
  | cons b bytes ih =>
    have hfirst : Memory.read s.dbuf (off % 4096) = some b := hbytes 0 (by simp)
    have hrest : ∀ i, i < bytes.length → Memory.read s.dbuf ((off + 1 + i) % 4096) = bytes[i]? := fun i hi => by
      simpa [Nat.add_assoc, Nat.add_comm 1] using hbytes (i + 1) (by simpa using hi)
    rw [List.length_cons, dbufAddresses_succ, absorbFrom_cons_of_read hfirst, absorb_of_lutWritten hlut b]
    exact ih (s := { s with crc := tableUpdate s s.crc b }) hlut hrest

/-- A loop that ends has found a byte at each of its addresses (R180). -/
theorem read_isSome_of_absorbFrom_ok {as : List Nat} (h : absorbFrom as s = .ok t) :
    ∀ a ∈ as, (Memory.read s.dbuf a).isSome = true := by
  induction as generalizing s with
  | nil => simp
  | cons a as ih =>
    cases hread : Memory.read s.dbuf a with
    | none => simp [absorbFrom, hread] at h
    | some b =>
      rw [absorbFrom_cons_of_read hread] at h
      rcases absorb_cases b s with ⟨e, -, habs⟩ | ⟨-, habs⟩
      · rw [habs] at h
        exact List.forall_mem_cons.2 ⟨by simp [hread], ih (s := { s with crc := mixEntry s.crc s.mask e }) h⟩
      · simp [habs, Except.bind] at h

/-- The loop stops on DBUF where one of its addresses is unwritten, wherever in the list that one stands (R180). -/
theorem absorbFrom_of_unwritten (hlut : LutWritten s) {as : List Nat} {a : Nat} (ha : a ∈ as)
    (hnone : Memory.read s.dbuf a = none) : absorbFrom as s = .error .unwrittenDbufByte := by
  cases h : absorbFrom as s with
  | ok t => simpa [hnone] using read_isSome_of_absorbFrom_ok h a ha
  | error f =>
    rcases absorbFrom_error h with rfl | ⟨rfl, -⟩
    · exact absurd h (absorbFrom_ne_unwrittenLutEntry hlut)
    · rfl

end Loop

/-- Settles O23: a context that is not ready makes COMPUTE raise, and on a ready one the loop ends with the fold over the
bytes it reads, or stops on the unwritten one. -/
theorem computeMixesTheBufferInOrder : Obligations.ComputeMixesTheBufferInOrder := by
  refine fun s off len => ⟨fun hnot => execCompute_of_not_ready off len (ready_eq_false_iff.2 hnot),
    fun hvalid htblv hlut => ?_⟩
  rw [execCompute_of_ready off len ((ready_iff s).2 ⟨hvalid, htblv⟩)]
  refine ⟨?_, ?_⟩
  · rintro bytes rfl hbytes
    rw [absorbFrom_of_bytes hlut hbytes]
    rfl
  · rintro ⟨i, hi, hnone⟩
    have hmem : (off + i) % 4096 ∈ dbufAddresses off len := List.mem_map.2 ⟨i, List.mem_range.2 hi, rfl⟩
    rw [absorbFrom_of_unwritten hlut hmem hnone]
    rfl

section Adjacent

variable {s t : State}

/-- The wrapped offset gives the same addresses (R95). -/
@[simp] theorem dbufAddresses_mod (off len : Nat) : dbufAddresses (off % 4096) len = dbufAddresses off len := by
  simp [dbufAddresses, dbufAddress, dbufBytes]

/-- The addresses of a COMPUTE over two adjacent regions (R95). -/
theorem dbufAddresses_add (off m n : Nat) :
    dbufAddresses off (m + n) = dbufAddresses off m ++ dbufAddresses (off + m) n := by
  simp [dbufAddresses, dbufAddress, List.range_add, Nat.add_assoc]

/-- A byte does not look at CAUSE, and leaves it as it is (R160). -/
theorem absorb_complete (b : Byte) (s : State) : absorb b (complete s) = (absorb b s).map complete := by
  simp only [absorb, complete_lut, lutIndexOf_complete]
  cases Memory.read s.lut (s.lutIndexOf b) <;> rfl

/-- The loop does not look at CAUSE either, so it goes on from a completed COMPUTE as from the state before it (R180). -/
theorem absorbFrom_complete (as : List Nat) (s : State) :
    absorbFrom as (complete s) = (absorbFrom as s).map complete := by
  induction as generalizing s with
  | nil => rfl
  | cons a as ih =>
    simp only [absorbFrom, complete_dbuf, absorb_complete]
    cases Memory.read s.dbuf a with
    | none => rfl
    | some b =>
      dsimp only
      cases absorb b s with
      | error f => rfl
      | ok t => exact ih t

/-- Completing before the end of a command changes nothing (R32). -/
@[simp] theorem completeOr_map_complete (r : Except Fault State) : completeOr (r.map complete) = completeOr r := by
  cases r <;> rfl

end Adjacent

/-- Settles O25: the loop over the union is the loop over the first region and then, from the CRC it left, the loop over the
second; where the first COMPUTE raised, so do the two others. -/
theorem adjacentComputesEqualOne : Obligations.AdjacentComputesEqualOne := by
  intro s t off m n h
  rcases execCompute_cases off m s with ⟨hs, hraise⟩ | ⟨hs, c, hloop, hnext⟩ | ⟨-, f, -, hfault⟩
  · obtain rfl : raise .invalidParameters s = t := by simpa [exec, hraise] using h
    rw [execCompute_of_not_ready _ _ hs, execCompute_of_not_ready _ _ (by rwa [ready_raise]), raise_raise]
  · obtain rfl : complete { s with crc := c } = t := by simpa [exec, hnext] using h
    rw [execCompute_of_ready _ _ hs, execCompute_of_ready (s := complete { s with crc := c }) _ _ hs, dbufAddresses_mod,
      absorbFrom_complete, completeOr_map_complete, dbufAddresses_add, absorbFrom_append, hloop]
  · simp [exec, hfault] at h

end Sys2Proof.Machine

/-! SUPPORT. Proofs of the statements about host access: what a LUT read returns, and what the recorded steps and runs do
with the fault and refused marks. -/

namespace Sys2Proof.Machine

/- One theorem is elaborated at a time here too, for the memory limit named above. -/
set_option deprecated.oldSectionVars true

section LutReads

variable {s : State} {k : Nat}

theorem readLut_of_some {e : Word} (h : Memory.read s.lut k = some e) :
    readLut k s = .next (respond (.word e) s) := by
  rw [readLut, h]
  rfl

theorem readLut_of_none (h : Memory.read s.lut k = none) : readLut k s = .fault .unwrittenLutEntry := by
  rw [readLut, h]
  rfl

end LutReads

/-- Settles O46: LUTRD is `readLut`, decided by the entry, and the window write has one answer. -/
theorem lutReadsReturnWrittenEntries : Obligations.LutReadsReturnWrittenEntries :=
  fun _ _ => ⟨fun _ h => readLut_of_some h, fun h => readLut_of_none h, fun _ => rfl⟩

/-! The recorded step and the recorded run, by what the step answers (R197, log entry 10). -/

section Marks

variable {s t : State}

theorem stepMarked_of_marked (h : s.faultMark = true ∨ s.refusedMark = true) : stepMarked s = s :=
  if_pos (Bool.or_eq_true_iff.2 h)

theorem NoStop.or_eq_false (hs : NoStop s) : (s.faultMark || s.refusedMark) = false :=
  Bool.or_eq_false_iff.2 hs

theorem stepMarked_of_next (hs : NoStop s) (h : step s = .next t) : stepMarked s = t := by
  simp [stepMarked, hs.or_eq_false, h]

theorem stepMarked_of_fault {f : Fault} (hs : NoStop s) (h : step s = .fault f) :
    stepMarked s = { s with faultMark := true } := by
  simp [stepMarked, hs.or_eq_false, h]

theorem stepMarked_of_refused {r : Refusal} (hs : NoStop s) (h : step s = .refused r) :
    stepMarked s = { s with refusedMark := true } := by
  simp [stepMarked, hs.or_eq_false, h]

/-- A step that answers next writes neither mark (R197). -/
theorem noStop_of_step_next (hs : NoStop s) (h : step s = .next t) : NoStop t := by
  obtain ⟨-, -, hfault, hrefused, -⟩ := stepTakesOneTransaction s t h
  exact ⟨hfault.trans hs.1, hrefused.trans hs.2⟩

theorem runMarked_of_marked (n : Nat) (h : s.faultMark = true ∨ s.refusedMark = true) : runMarked n s = s := by
  induction n with
  | zero => rfl
  | succ n ih => rw [runMarked, stepMarked_of_marked h, ih]

/-- A step with a transaction to perform that answers next takes the transaction and advances the position
by 1 (R37). -/
theorem step_next_of_pending {a : Access} {rest : List Access} (hp : s.pending = a :: rest) (h : step s = .next t) :
    t.pending = rest ∧ t.position = s.position + 1 := by
  obtain ⟨-, -, -, -, ⟨hnil, -⟩ | ⟨b, rest', hp', hpending, hposition⟩⟩ := stepTakesOneTransaction s t h
  · cases hp.symm.trans hnil
  · cases hp.symm.trans hp'
    exact ⟨hpending, hposition⟩

/-- A recorded run as long as the program performs all of it, or ends in the stop it met on the way (R197, R250). -/
theorem runMarked_length_performs_or_stops (p : List Access) (hs : NoStop s) (hp : s.pending = p) :
    (NoStop (runMarked p.length s) ∧ (runMarked p.length s).pending = [] ∧
      (runMarked p.length s).position = s.position + p.length) ∨
    (((runMarked p.length s).faultMark = true ∨ (runMarked p.length s).refusedMark = true) ∧
      (runMarked p.length s).position < s.position + p.length) := by
  induction p generalizing s with
  | nil => exact .inl ⟨hs, hp, rfl⟩
  | cons a rest ih =>
    rw [List.length_cons, runMarked]
    cases h : step s with
    | next t =>
      obtain ⟨hpending, hposition⟩ := step_next_of_pending hp h
      have hlength : s.position + (rest.length + 1) = t.position + rest.length := by omega
      rw [stepMarked_of_next hs h, hlength]
      exact ih (noStop_of_step_next hs h) hpending
    | fault f =>
      rw [stepMarked_of_fault hs h, runMarked_of_marked _ (.inl rfl)]
      exact .inr ⟨.inl rfl, Nat.lt_add_of_pos_right (Nat.succ_pos _)⟩
    | refused r =>
      rw [stepMarked_of_refused hs h, runMarked_of_marked _ (.inr rfl)]
      exact .inr ⟨.inr rfl, Nat.lt_add_of_pos_right (Nat.succ_pos _)⟩

end Marks

/-- Settles O38: a marked state makes no further step, and one without a mark takes or records what the step answers. -/
theorem marksRecordTheFirstStop : Obligations.MarksRecordTheFirstStop :=
  ⟨fun n _ h => runMarked_of_marked n h, fun _ _ hs h => stepMarked_of_fault hs h,
    fun _ _ hs h => stepMarked_of_refused hs h,
    fun _ _ hs h => ⟨stepMarked_of_next hs h, noStop_of_step_next hs h⟩⟩

/-- Settles O37, by induction on the program; an illegal build would stop at the first transaction. -/
theorem programIsPerformedOrStops : Obligations.ProgramIsPerformedOrStops := by
  rintro s _ - hs rfl
  exact runMarked_length_performs_or_stops s.pending hs rfl

end Sys2Proof.Machine

/-! SUPPORT. Proofs of the statements about several engines and several hosts: what a step of one instance does to the
list of instances, and which fields of an access its meaning reads. -/

namespace Sys2Proof.Machine

section Instances

variable (engines : List State) (j : Nat) {k : Nat}

theorem getElem?_stepInstance_self : (stepInstance j engines)[j]? = engines[j]?.map stepMarked :=
  List.getElem?_modify_eq stepMarked j engines

variable {j}

theorem getElem?_stepInstance_of_ne (h : j ≠ k) : (stepInstance j engines)[k]? = engines[k]? :=
  List.getElem?_modify_ne stepMarked engines h

theorem stepInstance_comm (h : j ≠ k) :
    stepInstance k (stepInstance j engines) = stepInstance j (stepInstance k engines) :=
  List.modify_modify_ne stepMarked stepMarked engines h

end Instances

/-- Settles O39: the engines are a list of states, and a step of one rewrites its own entry only. -/
theorem instancesShareNothing : Obligations.InstancesShareNothing := fun engines j _ hne =>
  ⟨getElem?_stepInstance_of_ne engines hne, getElem?_stepInstance_self engines j, stepInstance_comm engines hne⟩

section Hosts

variable {a b : Access}

/-- The window's map reads the address and the operation of an access, and nothing else of it (R61, R62). -/
theorem decodeAccess_congr (base : Nat) (haddr : a.addr = b.addr) (hop : a.op = b.op) :
    decodeAccess base a = decodeAccess base b := by
  rw [decodeAccess, decodeAccess, haddr, hop]

theorem perform_congr (s : State) (haddr : a.addr = b.addr) (hop : a.op = b.op) : perform a s = perform b s := by
  rw [perform, perform, decodeAccess_congr s.engineBase haddr hop]

end Hosts

/-- Settles O52: what an access does is fixed by its address and its operation, and both are kept when the host changes. -/
theorem hostIdentityIsNotChecked : Obligations.HostIdentityIsNotChecked :=
  fun _ _ s => perform_congr s rfl rfl

end Sys2Proof.Machine
